-- ==== Sys2Proof/Word.lean ====
section
/-! DEFINITION. The bit-vector types of PKTDEC: the packet word, a buffer byte, and the two parts of an insert command. -/

namespace Sys2Proof

/-- The 64-bit packet word `p`; bit 0 is the least significant bit (00_scope.md R9). -/
abbrev Word := BitVec 64

/-- One byte of the 8-byte packet buffer (20_memory.md R40). -/
abbrev Byte := BitVec 8

/-- The insert unit's command select `ins_sel_i[3:0]` (10_state.md R27). -/
abbrev Sel := BitVec 4

/-- The insert unit's value `ins_val_i[30:0]` (10_state.md R27). -/
abbrev Val := BitVec 31

/-- The 35-bit command word `CMD[34:0]` (30_encoding.md R71). -/
abbrev Cmd := BitVec 35

end Sys2Proof
end

