-- ==== Sys2Proof/Machine/Operands.lean ====
section
/-! DEFINITION. The eleven fields of the packet word (30_encoding.md R61), the one getter and the one setter that every
field's accessor is an instance of (00_scope.md R11, 42_insert.md R150). -/

namespace Sys2Proof.Machine

/-- A field of the packet (30_encoding.md R61), in the table's order. -/
inductive Field where
  | type | chip | channel | timestamp | first | data | trigType | localFifo | sharedFifo | downstream | parityBit
  deriving DecidableEq, Repr

/-- All fields (30_encoding.md R61). -/
def fields : List Field :=
  [.type, .chip, .channel, .timestamp, .first, .data, .trigType, .localFifo, .sharedFifo, .downstream, .parityBit]

/-- `width_f` (30_encoding.md R61). -/
def fieldWidth : Field → Nat
  | .type => 2
  | .chip => 8
  | .channel => 6
  | .timestamp => 31
  | .first => 1
  | .data => 8
  | .trigType => 2
  | .localFifo => 2
  | .sharedFifo => 2
  | .downstream => 1
  | .parityBit => 1

/-- `LO_f` (30_encoding.md R61). -/
def fieldLo : Field → Nat
  | .type => 0
  | .chip => 2
  | .channel => 10
  | .timestamp => 16
  | .first => 47
  | .data => 48
  | .trigType => 56
  | .localFifo => 58
  | .sharedFifo => 60
  | .downstream => 62
  | .parityBit => 63

/-- `MASK_f` (30_encoding.md R61). -/
def fieldMask : Field → Word
  | .type => 0x0000000000000003
  | .chip => 0x00000000000003FC
  | .channel => 0x000000000000FC00
  | .timestamp => 0x00007FFFFFFF0000
  | .first => 0x0000800000000000
  | .data => 0x00FF000000000000
  | .trigType => 0x0300000000000000
  | .localFifo => 0x0C00000000000000
  | .sharedFifo => 0x3000000000000000
  | .downstream => 0x4000000000000000
  | .parityBit => 0x8000000000000000

/-- The insert-command code that writes a field (30_encoding.md R70). -/
def fieldSel : Field → Sel
  | .type => 0x0
  | .chip => 0x1
  | .channel => 0x2
  | .timestamp => 0x3
  | .first => 0x4
  | .data => 0x5
  | .trigType => 0x6
  | .localFifo => 0x7
  | .sharedFifo => 0x8
  | .downstream => 0x9
  | .parityBit => 0xA

/-- `get_f(p) = (p & MASK_f) >> LO_f` (00_scope.md R11, 30_encoding.md R65), zero-extended to 64 bits. -/
def getField (f : Field) (p : Word) : Word := (p &&& fieldMask f) >>> fieldLo f

/-- `trunc_width_f(ins_val_i)` (42_insert.md R151), zero-extended to 64 bits. -/
def truncField (f : Field) (v : Val) : Word := (v.setWidth (fieldWidth f)).setWidth 64

/-- `(p & ~MASK_f) | (zext_64(v) << LO_f)` with `v` truncated to the field's width (42_insert.md R150, R151). -/
def setField (f : Field) (p : Word) (v : Val) : Word :=
  (p &&& ~~~ fieldMask f) ||| (truncField f v <<< fieldLo f)

/-! The field outputs, each of its port's width (10_state.md R26, 40_decode.md R102 to R113). -/

/-- `type_o` (40_decode.md R102). -/
def typeOf (p : Word) : BitVec 2 := (getField .type p).setWidth 2
/-- `chip_o` (40_decode.md R104). -/
def chipOf (p : Word) : BitVec 8 := (getField .chip p).setWidth 8
/-- `channel_o` (40_decode.md R105). -/
def channelOf (p : Word) : BitVec 6 := (getField .channel p).setWidth 6
/-- `timestamp_o` (40_decode.md R106). -/
def timestampOf (p : Word) : BitVec 31 := (getField .timestamp p).setWidth 31
/-- `first_o` (40_decode.md R107). -/
def firstOf (p : Word) : BitVec 1 := (getField .first p).setWidth 1
/-- `data_o` (40_decode.md R108). -/
def dataOf (p : Word) : BitVec 8 := (getField .data p).setWidth 8
/-- `trig_type_o` (40_decode.md R109). -/
def trigTypeOf (p : Word) : BitVec 2 := (getField .trigType p).setWidth 2
/-- `local_fifo_o` (40_decode.md R110). -/
def localFifoOf (p : Word) : BitVec 2 := (getField .localFifo p).setWidth 2
/-- `shared_fifo_o` (40_decode.md R111). -/
def sharedFifoOf (p : Word) : BitVec 2 := (getField .sharedFifo p).setWidth 2
/-- `downstream_o` (40_decode.md R112). -/
def downstreamOf (p : Word) : BitVec 1 := (getField .downstream p).setWidth 1
/-- `parity_bit_o` (40_decode.md R113). -/
def parityBitOf (p : Word) : BitVec 1 := (getField .parityBit p).setWidth 1

/-- `is_data_o`, `is_error_o`, `is_write_o`, `is_read_o`: the type equals a code (40_decode.md R103). -/
def isType (code : BitVec 2) (p : Word) : Bool := typeOf p == code

end Sys2Proof.Machine
end

