-- ==== Sys2Proof/Syntax.lean ====
section
/-! DEFINITION. The syntax of PKTDEC's operations: one constructor for each row of spec/opcode_table.json. -/

namespace Sys2Proof

/-- One row of the opcode table each, in the table's order.  A packet row carries the whole 64-bit packet word; a decoder
row has no operand word, since it is selected by reading its port (30_encoding.md R67); an insert row carries the 31
bits of `ins_val_i`, used or ignored (R70, R71); the reserved row also carries its select code (R72). -/
inductive Instr where
  /-- `PKT_DATA` (30_encoding.md R63, code 0). -/
  | pktData (p : Word)
  /-- `PKT_ERROR` (30_encoding.md R63, code 1). -/
  | pktError (p : Word)
  /-- `PKT_WRITE` (30_encoding.md R63, code 2). -/
  | pktWrite (p : Word)
  /-- `PKT_READ` (30_encoding.md R63, code 3). -/
  | pktRead (p : Word)
  /-- `GET_TYPE` (40_decode.md R102). -/
  | getType
  /-- `TYPE_DECODE` (40_decode.md R103). -/
  | typeDecode
  /-- `GET_CHIP` (40_decode.md R104). -/
  | getChip
  /-- `GET_CHANNEL` (40_decode.md R105). -/
  | getChannel
  /-- `GET_TIMESTAMP` (40_decode.md R106). -/
  | getTimestamp
  /-- `GET_FIRST` (40_decode.md R107). -/
  | getFirst
  /-- `GET_DATA` (40_decode.md R108). -/
  | getData
  /-- `GET_TRIG_TYPE` (40_decode.md R109). -/
  | getTrigType
  /-- `GET_LOCAL_FIFO` (40_decode.md R110). -/
  | getLocalFifo
  /-- `GET_SHARED_FIFO` (40_decode.md R111). -/
  | getSharedFifo
  /-- `GET_DOWNSTREAM` (40_decode.md R112). -/
  | getDownstream
  /-- `GET_PARITY_BIT` (40_decode.md R113). -/
  | getParityBit
  /-- `GEN_PARITY` (41_parity.md R131). -/
  | genParity
  /-- `VALID_PARITY` (41_parity.md R132). -/
  | validParity
  /-- `UPDATE_PARITY_DEC` (41_parity.md R140). -/
  | updateParityDec
  /-- `SET_TYPE`, select 0x0 (42_insert.md R153). -/
  | setType (v : Val)
  /-- `SET_CHIP`, select 0x1 (42_insert.md R154). -/
  | setChip (v : Val)
  /-- `SET_CHANNEL`, select 0x2 (42_insert.md R155). -/
  | setChannel (v : Val)
  /-- `SET_TIMESTAMP`, select 0x3 (42_insert.md R156). -/
  | setTimestamp (v : Val)
  /-- `SET_FIRST`, select 0x4 (42_insert.md R157). -/
  | setFirst (v : Val)
  /-- `SET_DATA`, select 0x5 (42_insert.md R158). -/
  | setData (v : Val)
  /-- `SET_TRIG_TYPE`, select 0x6 (42_insert.md R159). -/
  | setTrigType (v : Val)
  /-- `SET_LOCAL_FIFO`, select 0x7 (42_insert.md R160). -/
  | setLocalFifo (v : Val)
  /-- `SET_SHARED_FIFO`, select 0x8 (42_insert.md R161). -/
  | setSharedFifo (v : Val)
  /-- `SET_DOWNSTREAM`, select 0x9 (42_insert.md R162). -/
  | setDownstream (v : Val)
  /-- `SET_PARITY_BIT`, select 0xA (42_insert.md R163). -/
  | setParityBit (v : Val)
  /-- `UPDATE_PARITY`, select 0xB, value ignored (41_parity.md R141). -/
  | updateParity (v : Val)
  /-- `RESERVED_C_F`, select 0xC to 0xF, value ignored (42_insert.md R164). -/
  | reservedCF (sel : Sel) (v : Val)
  deriving DecidableEq, Repr

end Sys2Proof
end

