-- ==== Sys2Proof/WellFormed.lean ====
section
/-! DEFINITION. Which terms of `Instr` stand for an encoding of the spec. -/

namespace Sys2Proof

/-- A packet row's word has the row's type code in bits 1:0 (30_encoding.md R63), and a reserved command's select has
bits 3:2 both set (30_encoding.md R72).  Every other operand is legal at every value (30_encoding.md R66, 42_insert.md R151). -/
def Instr.wellFormed : Instr → Bool
  | .pktData p => p.extractLsb' 0 2 == 0#2
  | .pktError p => p.extractLsb' 0 2 == 1#2
  | .pktWrite p => p.extractLsb' 0 2 == 2#2
  | .pktRead p => p.extractLsb' 0 2 == 3#2
  | .reservedCF sel _ => sel.extractLsb' 2 2 == 3#2
  | .getType | .typeDecode | .getChip | .getChannel | .getTimestamp | .getFirst | .getData | .getTrigType
  | .getLocalFifo | .getSharedFifo | .getDownstream | .getParityBit | .genParity | .validParity | .updateParityDec => true
  | .setType _ | .setChip _ | .setChannel _ | .setTimestamp _ | .setFirst _ | .setData _ | .setTrigType _
  | .setLocalFifo _ | .setSharedFifo _ | .setDownstream _ | .setParityBit _ | .updateParity _ => true

end Sys2Proof
end

