-- ==== Sys2Proof/Decode.lean ====
section
/-! DEFINITION. From what the host drives or reads to an instruction, and back: the packet word (30_encoding.md R60 to
R66), the insert command word (R70 to R72), and the decoder's read ports (R67). -/

namespace Sys2Proof

/-- The decoder operations of the opcode table, each named by the output port (for `TYPE_DECODE`, the four one-hot
ports) whose reading selects it: "A decoder operation is selected by reading its port" (30_encoding.md R67). -/
inductive DecPort where
  | typeO | typeOneHot | chipO | channelO | timestampO | firstO | dataO | trigTypeO | localFifoO | sharedFifoO
  | downstreamO | parityBitO | parityGenO | parityOkO | pktFixedO
  deriving DecidableEq, Repr

/-- What one operation of the opcode table is written as: a packet word for `pkt_i`, a command word for the insert
unit, or a port to read.  Which of the three is not part of a word: they enter the block at different ports
(10_state.md R26, R27). -/
inductive Code where
  | packet (p : Word)
  | command (c : Cmd)
  | port (q : DecPort)
  deriving DecidableEq, Repr

/-- Why bytes are no word of the block. -/
inductive DecodeReject where
  /-- A packet is exactly 8 bytes (30_encoding.md R60). -/
  | packetLength (n : Nat)
  /-- A command word is laid out in 5 bytes (log 12). -/
  | commandLength (n : Nat)
  /-- `CMD` has bits 34:0 only (30_encoding.md R71). -/
  | commandAbove34
  deriving DecidableEq, Repr

/-! ### Decoding -/

/-- The kind of a packet is its type code `p[1:0]`; all four codes are defined (30_encoding.md R63). -/
def decodePacket (p : Word) : Instr :=
  match (p.extractLsb' 0 2).toNat with
  | 0 => .pktData p
  | 1 => .pktError p
  | 2 => .pktWrite p
  | _ => .pktRead p

/-- `ins_sel_i = CMD[3:0]` (30_encoding.md R71). -/
def cmdSel (c : Cmd) : Sel := c.extractLsb' 0 4

/-- `ins_val_i = CMD[34:4]` (30_encoding.md R71). -/
def cmdVal (c : Cmd) : Val := c.extractLsb' 4 31

/-- `CMD = {ins_val_i, ins_sel_i}` (30_encoding.md R71). -/
def mkCmd (v : Val) (sel : Sel) : Cmd := v ++ sel

/-- The command codes of 30_encoding.md R70; 0xC to 0xF are the reserved row (R72). -/
def decodeCommand (c : Cmd) : Instr :=
  match (cmdSel c).toNat with
  | 0x0 => .setType (cmdVal c)
  | 0x1 => .setChip (cmdVal c)
  | 0x2 => .setChannel (cmdVal c)
  | 0x3 => .setTimestamp (cmdVal c)
  | 0x4 => .setFirst (cmdVal c)
  | 0x5 => .setData (cmdVal c)
  | 0x6 => .setTrigType (cmdVal c)
  | 0x7 => .setLocalFifo (cmdVal c)
  | 0x8 => .setSharedFifo (cmdVal c)
  | 0x9 => .setDownstream (cmdVal c)
  | 0xA => .setParityBit (cmdVal c)
  | 0xB => .updateParity (cmdVal c)
  | _ => .reservedCF (cmdSel c) (cmdVal c)

/-- One decoder operation per port (30_encoding.md R67, 10_state.md R26). -/
def decodePort : DecPort → Instr
  | .typeO => .getType
  | .typeOneHot => .typeDecode
  | .chipO => .getChip
  | .channelO => .getChannel
  | .timestampO => .getTimestamp
  | .firstO => .getFirst
  | .dataO => .getData
  | .trigTypeO => .getTrigType
  | .localFifoO => .getLocalFifo
  | .sharedFifoO => .getSharedFifo
  | .downstreamO => .getDownstream
  | .parityBitO => .getParityBit
  | .parityGenO => .genParity
  | .parityOkO => .validParity
  | .pktFixedO => .updateParityDec

/-- The instruction a code stands for.  Total: no packet word and no command word is illegal (30_encoding.md R66, R72). -/
def decode : Code → Instr
  | .packet p => decodePacket p
  | .command c => decodeCommand c
  | .port q => decodePort q

/-! ### Bytes -/

/-- `p = (B[7], …, B[0])`: the buffer's byte `k` is `p[8k+7:8k]` (20_memory.md R40). -/
def packetOfBytes (b0 b1 b2 b3 b4 b5 b6 b7 : Byte) : Word :=
  b7 ++ b6 ++ b5 ++ b4 ++ b3 ++ b2 ++ b1 ++ b0

/-- `MemRead(k, 1)` of 00_scope.md R10: byte `k` of the packet buffer. -/
def packetByte (p : Word) (k : Nat) : Byte := p.extractLsb' (8 * k) 8

/-- A byte list as a number, first byte least significant (20_memory.md R40). -/
def natOfBytes : List Byte → Nat
  | [] => 0
  | b :: bs => b.toNat + 256 * natOfBytes bs

/-- The low `n` bytes of a number, least significant first. -/
def bytesOfNat : Nat → Nat → List Byte
  | 0, _ => []
  | n + 1, w => BitVec.ofNat 8 w :: bytesOfNat n (w / 256)

/-- Bytes as a packet: exactly 8 of them (30_encoding.md R60). -/
def decodePacketBytes : List Byte → Except DecodeReject Instr
  | [b0, b1, b2, b3, b4, b5, b6, b7] => .ok (decode (.packet (packetOfBytes b0 b1 b2 b3 b4 b5 b6 b7)))
  | bs => .error (.packetLength bs.length)

/-- Bytes as a command word: 5 bytes, least significant first, with nothing above bit 34.
DESIGN CHOICE (log 12; safe): the spec gives the command word as a number, not as bytes. -/
def decodeCommandBytes (bs : List Byte) : Except DecodeReject Instr :=
  if bs.length = 5 then
    if natOfBytes bs < 2 ^ 35 then .ok (decode (.command (BitVec.ofNat 35 (natOfBytes bs))))
    else .error .commandAbove34
  else .error (.commandLength bs.length)

/-! ### Encoding -/

/-- The code of an instruction, from 30_encoding.md R61, R63 (packets), R70, R71 (commands) and R67 (ports). -/
def encode : Instr → Code
  | .pktData p => .packet p
  | .pktError p => .packet p
  | .pktWrite p => .packet p
  | .pktRead p => .packet p
  | .getType => .port .typeO
  | .typeDecode => .port .typeOneHot
  | .getChip => .port .chipO
  | .getChannel => .port .channelO
  | .getTimestamp => .port .timestampO
  | .getFirst => .port .firstO
  | .getData => .port .dataO
  | .getTrigType => .port .trigTypeO
  | .getLocalFifo => .port .localFifoO
  | .getSharedFifo => .port .sharedFifoO
  | .getDownstream => .port .downstreamO
  | .getParityBit => .port .parityBitO
  | .genParity => .port .parityGenO
  | .validParity => .port .parityOkO
  | .updateParityDec => .port .pktFixedO
  | .setType v => .command (mkCmd v 0x0)
  | .setChip v => .command (mkCmd v 0x1)
  | .setChannel v => .command (mkCmd v 0x2)
  | .setTimestamp v => .command (mkCmd v 0x3)
  | .setFirst v => .command (mkCmd v 0x4)
  | .setData v => .command (mkCmd v 0x5)
  | .setTrigType v => .command (mkCmd v 0x6)
  | .setLocalFifo v => .command (mkCmd v 0x7)
  | .setSharedFifo v => .command (mkCmd v 0x8)
  | .setDownstream v => .command (mkCmd v 0x9)
  | .setParityBit v => .command (mkCmd v 0xA)
  | .updateParity v => .command (mkCmd v 0xB)
  | .reservedCF sel v => .command (mkCmd v sel)

/-- How many low bits of `ins_val_i` a command uses (30_encoding.md R70); 0 where it ignores the value, and for a row
that is no command. -/
def Instr.valueBits : Instr → Nat
  | .setType _ => 2
  | .setChip _ => 8
  | .setChannel _ => 6
  | .setTimestamp _ => 31
  | .setFirst _ => 1
  | .setData _ => 8
  | .setTrigType _ => 2
  | .setLocalFifo _ => 2
  | .setSharedFifo _ => 2
  | .setDownstream _ => 1
  | .setParityBit _ => 1
  | .updateParity _ | .reservedCF _ _ => 0
  | .pktData _ | .pktError _ | .pktWrite _ | .pktRead _ => 0
  | .getType | .typeDecode | .getChip | .getChannel | .getTimestamp | .getFirst | .getData | .getTrigType
  | .getLocalFifo | .getSharedFifo | .getDownstream | .getParityBit | .genParity | .validParity | .updateParityDec => 0

/-- The low `n` bits of a value, the others 0. -/
def lowBits (n : Nat) (v : Val) : Val := v &&& BitVec.ofNat 31 (2 ^ n - 1)

/-- The canonical form of an instruction: "Value bits a command does not use … The canonical encoding sets them to 0"
(30_encoding.md R71). -/
def Instr.canonical : Instr → Instr
  | .setType v => .setType (lowBits 2 v)
  | .setChip v => .setChip (lowBits 8 v)
  | .setChannel v => .setChannel (lowBits 6 v)
  | .setTimestamp v => .setTimestamp (lowBits 31 v)
  | .setFirst v => .setFirst (lowBits 1 v)
  | .setData v => .setData (lowBits 8 v)
  | .setTrigType v => .setTrigType (lowBits 2 v)
  | .setLocalFifo v => .setLocalFifo (lowBits 2 v)
  | .setSharedFifo v => .setSharedFifo (lowBits 2 v)
  | .setDownstream v => .setDownstream (lowBits 1 v)
  | .setParityBit v => .setParityBit (lowBits 1 v)
  | .updateParity v => .updateParity (lowBits 0 v)
  | .reservedCF sel v => .reservedCF sel (lowBits 0 v)
  | .pktData p => .pktData p
  | .pktError p => .pktError p
  | .pktWrite p => .pktWrite p
  | .pktRead p => .pktRead p
  | .getType => .getType
  | .typeDecode => .typeDecode
  | .getChip => .getChip
  | .getChannel => .getChannel
  | .getTimestamp => .getTimestamp
  | .getFirst => .getFirst
  | .getData => .getData
  | .getTrigType => .getTrigType
  | .getLocalFifo => .getLocalFifo
  | .getSharedFifo => .getSharedFifo
  | .getDownstream => .getDownstream
  | .getParityBit => .getParityBit
  | .genParity => .genParity
  | .validParity => .validParity
  | .updateParityDec => .updateParityDec

/-! ### The opcode table -/

/-- The `mask` and `match` of a row over its packet word or command word (spec/opcode_table.json); a decoder row has
no select (30_encoding.md R67), hence none. -/
def Instr.tableRow : Instr → Option (Nat × Nat)
  | .pktData _ => some (0x3, 0x0)
  | .pktError _ => some (0x3, 0x1)
  | .pktWrite _ => some (0x3, 0x2)
  | .pktRead _ => some (0x3, 0x3)
  | .setType _ => some (0xF, 0x0)
  | .setChip _ => some (0xF, 0x1)
  | .setChannel _ => some (0xF, 0x2)
  | .setTimestamp _ => some (0xF, 0x3)
  | .setFirst _ => some (0xF, 0x4)
  | .setData _ => some (0xF, 0x5)
  | .setTrigType _ => some (0xF, 0x6)
  | .setLocalFifo _ => some (0xF, 0x7)
  | .setSharedFifo _ => some (0xF, 0x8)
  | .setDownstream _ => some (0xF, 0x9)
  | .setParityBit _ => some (0xF, 0xA)
  | .updateParity _ => some (0xF, 0xB)
  | .reservedCF _ _ => some (0xC, 0xC)
  | .getType | .typeDecode | .getChip | .getChannel | .getTimestamp | .getFirst | .getData | .getTrigType
  | .getLocalFifo | .getSharedFifo | .getDownstream | .getParityBit | .genParity | .validParity | .updateParityDec => none

/-- A code's word as a number, where it has one. -/
def Code.bits? : Code → Option Nat
  | .packet p => some p.toNat
  | .command c => some c.toNat
  | .port _ => none

/-- Which word of the block an opcode-table word of `nbits` bits is read as: more than 40 bits, a packet word; else a
command word.
DESIGN CHOICE (log 11; safe): the table's words for the packet, decoder and insert rows overlap, and the spec gives no
bit that tells them apart (30_encoding.md R67). -/
def tableCode (nbits w : Nat) : Option Code :=
  if 40 < nbits then
    if w < 2 ^ 64 then some (.packet (BitVec.ofNat 64 w)) else none
  else
    if w < 2 ^ 35 then some (.command (BitVec.ofNat 35 w)) else none

/-- The instruction the byte decoders read from an opcode-table word laid out in bytes, least significant first: 8
bytes of a packet, 5 of a command word, one more where the number does not fit (log 11, 12). -/
def decodeTableWord (nbits w : Nat) : Option Instr :=
  if 40 < nbits then
    (decodePacketBytes (bytesOfNat (if w < 2 ^ 64 then 8 else 9) w)).toOption
  else
    (decodeCommandBytes (bytesOfNat (if w < 2 ^ 40 then 5 else 6) w)).toOption

end Sys2Proof
end

