-- ==== Sys2Proof/Config.lean ====
section
/-! DEFINITION. What is fixed when PKTDEC is built: the three build-time parameters (00_scope.md R8). -/

namespace Sys2Proof

mutual

/-- A shape of the parity generator's XOR reduction over the inputs `p[62:0]` (parameter `P_XOR_TREE`, 00_scope.md R8,
41_parity.md R136): an input bit, a constant 0 (the pad of R136), or an XOR gate of any number of inputs.
DESIGN CHOICE (log 2; safe): a gate whose output is used several times is written out at each use. -/
inductive XorTree where
  /-- The input `p[i]`. -/
  | input (i : Nat)
  /-- The constant 0 that pads the default tree. -/
  | pad
  /-- An XOR gate. -/
  | gate (ins : XorGate)
  deriving DecidableEq, Repr

/-- What stands at the inputs of an XOR gate. -/
inductive XorGate where
  | nil
  | cons (t : XorTree) (rest : XorGate)
  deriving DecidableEq, Repr

end

/-- The build-time parameters (00_scope.md R8); "fixed when the block is built" (70_reset_and_hazards.md R222). -/
structure Params where
  /-- `P_OUT_REG = 1`: the decoder has one register stage with valid tracking. -/
  outReg : Bool
  /-- `P_HAS_INSERT = 1`: the field-insert unit is present. -/
  hasInsert : Bool
  /-- `P_XOR_TREE`: the shape of the parity generator. -/
  xorTree : XorTree
  deriving DecidableEq, Repr

end Sys2Proof
end

