-- ==== Sys2Proof/Machine/Flags.lean ====
section
/-! DEFINITION. Parity: population count, XOR reduction, the parity generator's tree, the validator and the updater
(41_parity.md). -/

namespace Sys2Proof.Machine

/-- `popcount(v)`: the number of 1 bits (00_scope.md R10). -/
def popcount {n : Nat} (v : BitVec n) : Nat := (List.range n).countP (v.getLsbD ·)

/-- `xor_reduce(v)`: the XOR of all bits (00_scope.md R10). -/
def xorReduce {n : Nat} (v : BitVec n) : Bool := (List.range n).foldl (fun a i => a ^^ v.getLsbD i) false

/-- The 63 bits that parity covers, `p[62:0]` (41_parity.md R130). -/
def covered (p : Word) : BitVec 63 := p.extractLsb' 0 63

mutual

/-- What a structure of XOR gates outputs on the packet word. -/
def treeXor : XorTree → Word → Bool
  | .input i, p => p.getLsbD i
  | .pad, _ => false
  | .gate g, p => gateXor g p

/-- The XOR of what stands at a gate's inputs. -/
def gateXor : XorGate → Word → Bool
  | .nil, _ => false
  | .cons t g, p => treeXor t p ^^ gateXor g p

end

mutual

/-- The inputs a structure reads, left to right, each as often as it is read. -/
def treeInputs : XorTree → List Nat
  | .input i => [i]
  | .pad => []
  | .gate g => gateInputs g

/-- The inputs read at a gate's inputs. -/
def gateInputs : XorGate → List Nat
  | .nil => []
  | .cons t g => treeInputs t ++ gateInputs g

end

/-- A legal value of `P_XOR_TREE`: "any XOR-reduction structure over 63 inputs" (00_scope.md R8).  It reads the inputs
0..62, each of them, and no other; an input read more than once is read an odd number of times, since its reads
cancel in pairs (log 2). -/
def treeLegal (t : XorTree) : Bool :=
  (treeInputs t).all (· < 63) && (List.range 63).all (fun i => (treeInputs t).count i % 2 == 1)

mutual

/-- The number of gates of a structure. -/
def treeGates : XorTree → Nat
  | .input _ => 0
  | .pad => 0
  | .gate g => gateGates g + 1

/-- The number of gates that feed a gate. -/
def gateGates : XorGate → Nat
  | .nil => 0
  | .cons t g => treeGates t + gateGates g

end

mutual

/-- The depth of a structure in gates. -/
def treeDepth : XorTree → Nat
  | .input _ => 0
  | .pad => 0
  | .gate g => gateDepth g + 1

/-- The depth of what stands at a gate's inputs. -/
def gateDepth : XorGate → Nat
  | .nil => 0
  | .cons t g => max (treeDepth t) (gateDepth g)

end

/-- A two-input XOR gate. -/
def gate2 (l r : XorTree) : XorTree := .gate (.cons l (.cons r .nil))

/-- `t_k[i]` of 41_parity.md R136: `t_0[i] = p[i]` for `i = 0..62`, `t_0[63] = 0`, and
`t_k[i] = t_(k-1)[2i] ^ t_(k-1)[2i+1]`. -/
def balanced : Nat → Nat → XorTree
  | 0, i => if i < 63 then .input i else .pad
  | k + 1, i => gate2 (balanced k (2 * i)) (balanced k (2 * i + 1))

/-- The default of `P_XOR_TREE`: the balanced binary tree of depth 6, `t_6[0]` (41_parity.md R136). -/
def defaultTree : XorTree := balanced 6 0

/-- `parity_gen_o = ~t6[0]` (41_parity.md R131, R136), as the built tree computes it. -/
def parityGen (t : XorTree) (p : Word) : BitVec 1 := ~~~ BitVec.ofBool (treeXor t p)

/-- `parity_ok_o = t6[0] ^ p[63]` (41_parity.md R132, R136), as the built tree computes it. -/
def parityOk (t : XorTree) (p : Word) : Bool := treeXor t p ^^ p.getLsbD 63

/-- `pkt_fixed_o` (41_parity.md R140): the word itself if its parity is valid, else with bit 63 flipped. -/
def pktFixed (t : XorTree) (p : Word) : Word := if parityOk t p then p else p ^^^ 0x8000000000000000#64

/-- `UPDATE_PARITY` of the insert unit (41_parity.md R141): bit 63 becomes `~xor_reduce(p[62:0])`, in the form
`1 - (popcount(p[62:0]) mod 2)` (R131), and bits 62..0 stay.
DESIGN CHOICE (log 16; safe): the insert unit computes `xor_reduce` without the decoder's tree. -/
def updateParityWord (p : Word) : Word := BitVec.ofNat 1 (1 - popcount (covered p) % 2) ++ covered p

end Sys2Proof.Machine
end

