-- ==== Sys2Proof/Machine/State.lean ====
section
/-! DEFINITION. The state of PKTDEC and its host as plain data, the reasons a step can stop, and the state after reset. -/

namespace Sys2Proof.Machine

/-- A step of the host (30_encoding.md R80), and the host's other moves of 10_state.md R32. -/
inductive HostStep where
  /-- `LDW w`: `H <- w`. -/
  | ldw (w : Word)
  /-- `LDB b0 … b7`: `H <- (b7, …, b0)`. -/
  | ldb (b0 b1 b2 b3 b4 b5 b6 b7 : Byte)
  /-- `DEC`: drive `pkt_i = H` and observe all decoder outputs (`P_OUT_REG = 0`). -/
  | dec
  /-- `CLK v, r`: drive `pkt_i = H`, `in_valid_i = v`, `rst = r`; one rising edge; observe all outputs (`P_OUT_REG = 1`). -/
  | clk (v r : Bool)
  /-- Read the port `out_valid_o` (10_state.md R26; 93_implementation_defined.md S3). -/
  | readOutValid
  /-- An operation of the opcode table: `INS` with its command word, a packet applied to `pkt_i`, or a port read. -/
  | code (c : Code)
  deriving DecidableEq, Repr

/-- The decoder's data outputs, port by port (10_state.md R26). -/
structure DecOut where
  typeO       : BitVec 2
  isDataO     : Bool
  isErrorO    : Bool
  isWriteO    : Bool
  isReadO     : Bool
  chipO       : BitVec 8
  channelO    : BitVec 6
  timestampO  : BitVec 31
  firstO      : BitVec 1
  dataO       : BitVec 8
  trigTypeO   : BitVec 2
  localFifoO  : BitVec 2
  sharedFifoO : BitVec 2
  downstreamO : BitVec 1
  parityBitO  : BitVec 1
  parityGenO  : BitVec 1
  parityOkO   : Bool
  pktFixedO   : Word
  deriving DecidableEq, Repr

/-- `OBS` (30_encoding.md R80): for each output port the value the host last observed there; `none` where it has
observed no readable value (no observation yet, or the last one found the outputs not valid, 10_state.md R31).
DESIGN CHOICE (log 7; safe): one entry per port. -/
structure Obs where
  outValidO   : Option Bool
  typeO       : Option (BitVec 2)
  isDataO     : Option Bool
  isErrorO    : Option Bool
  isWriteO    : Option Bool
  isReadO     : Option Bool
  chipO       : Option (BitVec 8)
  channelO    : Option (BitVec 6)
  timestampO  : Option (BitVec 31)
  firstO      : Option (BitVec 1)
  dataO       : Option (BitVec 8)
  trigTypeO   : Option (BitVec 2)
  localFifoO  : Option (BitVec 2)
  sharedFifoO : Option (BitVec 2)
  downstreamO : Option (BitVec 1)
  parityBitO  : Option (BitVec 1)
  parityGenO  : Option (BitVec 1)
  parityOkO   : Option Bool
  pktFixedO   : Option Word
  deriving DecidableEq, Repr

/-- Nothing observed. -/
def Obs.empty : Obs :=
  { outValidO := none, typeO := none, isDataO := none, isErrorO := none, isWriteO := none, isReadO := none, chipO := none,
    channelO := none, timestampO := none, firstO := none, dataO := none, trigTypeO := none, localFifoO := none,
    sharedFifoO := none, downstreamO := none, parityBitO := none, parityGenO := none, parityOkO := none, pktFixedO := none }

/-- The whole state: the block's build parameters and registers, its ports as driven now, and the host's word,
observation and pending steps. -/
structure State where
  /-- The build-time parameters (00_scope.md R8); no step changes them (log 1). -/
  params      : Params
  /-- `valid_q` (10_state.md R28); `none`: absent (`P_OUT_REG = 0`) or unspecified since power-up (R31; log 6). -/
  validQ      : Option Bool
  /-- `pkt_q` (10_state.md R28); `none`: absent, or it "holds no value, and a model gives it none" (R31; log 6). -/
  pktQ        : Option Word
  /-- An edge with `rst = 1` has happened since power-up (60_exceptions.md R203; log 6). -/
  resetSeen   : Bool
  /-- `pkt_i` as driven (10_state.md R26). -/
  pktI        : Word
  /-- `in_valid_i` as driven (10_state.md R26). -/
  inValidI    : Bool
  /-- `rst` as driven (10_state.md R26). -/
  rst         : Bool
  /-- `ins_pkt_i` as driven (10_state.md R27). -/
  insPktI     : Word
  /-- `ins_sel_i` as driven (10_state.md R27). -/
  insSelI     : Sel
  /-- `ins_val_i` as driven (10_state.md R27). -/
  insValI     : Val
  /-- The wire `ins_pkt_o` (10_state.md R27). -/
  insPktO     : Word
  /-- The wire `ins_illegal_o` (10_state.md R27, 42_insert.md R164). -/
  insIllegalO : Bool
  /-- The host-held word `H` (30_encoding.md R80). -/
  h           : Word
  /-- The host's latest decoder observation `OBS` (30_encoding.md R80). -/
  obs         : Obs
  /-- The host's steps not yet taken, first one next (30_encoding.md R80; log 3). -/
  program     : List HostStep
  deriving DecidableEq, Repr

/-- The faults of 60_exceptions.md R203.  The block never faults; these stop the model where the spec says a read gives
no value. -/
inductive Fault where
  /-- Raised by a read of a decoder output with `P_OUT_REG = 1` before the first reset after power-up (R203; 93 S3).
  Safe: silicon would show some value. -/
  | readBeforeReset
  /-- Raised by a read of a decoder data output with `P_OUT_REG = 1` while `valid_q = 0` (10_state.md R31; 93 S2), or while
  `pkt_q` holds no value (93 S1).  Safe: silicon would show some value. -/
  | dataOutputNotValid
  deriving DecidableEq, Repr

/-- The host steps a build refuses (60_exceptions.md R203). -/
inductive Refusal where
  /-- Raised by `exec` for an instruction without a meaning.  Safe.  No arm raises it in this model. -/
  | notModelled (mnemonic : String)
  /-- Raised by every insert command with `P_HAS_INSERT = 0` (42_insert.md R165).  Safe. -/
  | insertUnitAbsent
  /-- Raised by `CLK` with `P_OUT_REG = 0` (30_encoding.md R80).  Safe. -/
  | clkWithoutRegister
  /-- Raised by `DEC` with `P_OUT_REG = 1` (30_encoding.md R80).  Safe. -/
  | decWithRegister
  deriving DecidableEq, Repr

/-- The default parameters (00_scope.md R8). -/
def defaultParams : Params := { outReg := false, hasInsert := true, xorTree := defaultTree }

/-- A build right after reset (10_state.md R31): with `P_OUT_REG = 1`, `valid_q = 0` and `pkt_q` without a value; with
`P_OUT_REG = 0` there is no register and no reset input (70_reset_and_hazards.md R220).
DESIGN CHOICE (log 4, 5; unsafe): the host has driven zeros, holds `H = 0` and has observed nothing. -/
def State.resetOf (b : Params) : State :=
  { params := b, validQ := if b.outReg then some false else none, pktQ := none, resetSeen := b.outReg,
    pktI := 0, inValidI := false, rst := false,
    insPktI := 0, insSelI := 0, insValI := 0, insPktO := 0, insIllegalO := false,
    h := 0, obs := Obs.empty, program := [] }

/-- A build at power-up, before any edge (10_state.md R31): neither register holds a value. -/
def State.powerUp (b : Params) : State :=
  { State.resetOf b with validQ := none, resetSeen := false }

/-- The machine right after reset, with the spec's default parameters (00_scope.md R8). -/
def State.reset : State := State.resetOf defaultParams

end Sys2Proof.Machine
end

