-- ==== Sys2Proof/Machine/Ops.lean ====
section
/-! DEFINITION. The named operations the meanings are written with: updates of the state, what the decoder's outputs
show, the clock edge, and the insert unit.  PKTDEC has no memory (20_memory.md R45) and takes no exception
(60_exceptions.md R200, R206, R207), so there is no operation for either. -/

namespace Sys2Proof.Machine

/-! ### Updates -/

/-- The host's word `H` becomes `w`. -/
def setH (w : Word) (s : State) : State := { s with h := w }

/-- The host's observation becomes `o`. -/
def setObs (o : Obs) (s : State) : State := { s with obs := o }

/-- The host drives `pkt_i`. -/
def setPktI (p : Word) (s : State) : State := { s with pktI := p }

/-- The host drives `in_valid_i` and `rst`. -/
def setEdgePins (v r : Bool) (s : State) : State := { s with inValidI := v, rst := r }

/-- The register stage takes new contents. -/
def setRegs (v : Option Bool) (q : Option Word) (seen : Bool) (s : State) : State :=
  { s with validQ := v, pktQ := q, resetSeen := seen }

/-- The host drives the insert unit's inputs, and the unit's output wires follow. -/
def setInsert (p : Word) (sel : Sel) (v : Val) (out : Word) (illegal : Bool) (s : State) : State :=
  { s with insPktI := p, insSelI := sel, insValI := v, insPktO := out, insIllegalO := illegal }

/-- The host's pending steps become `hs`. -/
def setProgram (hs : List HostStep) (s : State) : State := { s with program := hs }

/-! ### The decoder -/

/-- All decoder data outputs for a packet word: evaluated at once, each a function of the word alone (10_state.md R21,
30_encoding.md R67). -/
def decoderOutputs (t : XorTree) (p : Word) : DecOut :=
  { typeO := typeOf p, isDataO := isType 0#2 p, isErrorO := isType 1#2 p, isWriteO := isType 2#2 p,
    isReadO := isType 3#2 p, chipO := chipOf p, channelO := channelOf p, timestampO := timestampOf p,
    firstO := firstOf p, dataO := dataOf p, trigTypeO := trigTypeOf p, localFifoO := localFifoOf p,
    sharedFifoO := sharedFifoOf p, downstreamO := downstreamOf p, parityBitO := parityBitOf p,
    parityGenO := parityGen t p, parityOkO := parityOk t p, pktFixedO := pktFixed t p }

/-- The packet word the decoder's outputs show: `pkt_i` with `P_OUT_REG = 0`, else `pkt_q` (10_state.md R28).  In the
registered build reading faults before the first reset, while `valid_q = 0`, and while `pkt_q` holds no value
(10_state.md R31, 60_exceptions.md R203, 93_implementation_defined.md S1 to S3). -/
def decoderWord (s : State) : Except Fault Word :=
  if s.params.outReg then
    match s.resetSeen, s.validQ, s.pktQ with
    | true, some true, some p => .ok p
    | true, some _, _ => .error .dataOutputNotValid
    | _, _, _ => .error .readBeforeReset
  else .ok s.pktI

/-- What the host may read at `out_valid_o`: `valid_q` (10_state.md R28), once a reset has been seen (R31); the port
exists only with `P_OUT_REG = 1` (R26). -/
def outValid (s : State) : Option Bool :=
  if s.params.outReg && s.resetSeen then s.validQ else none

/-- An observation of all outputs at once. -/
def obsOf (v : Option Bool) (o : DecOut) : Obs :=
  { outValidO := v, typeO := some o.typeO, isDataO := some o.isDataO, isErrorO := some o.isErrorO,
    isWriteO := some o.isWriteO, isReadO := some o.isReadO, chipO := some o.chipO, channelO := some o.channelO,
    timestampO := some o.timestampO, firstO := some o.firstO, dataO := some o.dataO, trigTypeO := some o.trigTypeO,
    localFifoO := some o.localFifoO, sharedFifoO := some o.sharedFifoO, downstreamO := some o.downstreamO,
    parityBitO := some o.parityBitO, parityGenO := some o.parityGenO, parityOkO := some o.parityOkO,
    pktFixedO := some o.pktFixedO }

/-- `OBS <-` all decoder outputs (30_encoding.md R80).  Where the data outputs are not valid the entries hold nothing.
DEDUCED (log 8; safe): the observation a `CLK` step makes does not fault (95_test_vectors.md P4), only a read does. -/
def observe (s : State) : State :=
  match decoderWord s with
  | .ok p => setObs (obsOf (outValid s) (decoderOutputs s.params.xorTree p)) s
  | .error _ => setObs { Obs.empty with outValidO := outValid s } s

/-- One rising edge of `clk` on the pins as driven (10_state.md R29): `rst` clears `valid_q` and keeps `pkt_q`; else
`valid_q <- in_valid_i`, and `pkt_i` is captured if `in_valid_i = 1`.
DEDUCED (log 9; safe): before the first reset the edge does the same. -/
def latch (s : State) : State :=
  if s.rst then setRegs (some false) s.pktQ true s
  else setRegs (some s.inValidI) (if s.inValidI then some s.pktI else s.pktQ) s.resetSeen s

/-- Drive `in_valid_i` and `rst`, then one rising edge (30_encoding.md R80 `CLK`). -/
def clockEdge (v r : Bool) (s : State) : State := latch (setEdgePins v r s)

/-- A packet is applied to the decoder and its outputs are observed: with `P_OUT_REG = 0` by driving `pkt_i`
(10_state.md R21, R32), with `P_OUT_REG = 1` by driving it with `in_valid_i = 1`, `rst = 0` across one edge (R29).
DESIGN CHOICE (log 10; unsafe): the spec lists the packet kinds as rows and gives no step of their own. -/
def applyPacket (p : Word) (s : State) : State :=
  if s.params.outReg then observe (clockEdge true false (setPktI p s)) else observe (setPktI p s)

/-- The host reads one decoder output port: the value goes into that port's entry of `OBS`, and nothing else changes,
since reading has no side effect (20_memory.md R44).
DESIGN CHOICE (log 7; safe): a single read leaves the other entries as they are. -/
def readPort (record : Word → Obs → Obs) (s : State) : Host.Outcome State Fault Refusal :=
  match decoderWord s with
  | .ok p => .next (setObs (record p s.obs) s)
  | .error f => .fault f

/-! ### The insert unit -/

/-- The insert unit as a function of its three inputs: `(ins_pkt_o, ins_illegal_o)` (30_encoding.md R70, R72). -/
def insertUnit (p : Word) (sel : Sel) (v : Val) : Word × Bool :=
  match sel.toNat with
  | 0x0 => (setField .type p v, false)
  | 0x1 => (setField .chip p v, false)
  | 0x2 => (setField .channel p v, false)
  | 0x3 => (setField .timestamp p v, false)
  | 0x4 => (setField .first p v, false)
  | 0x5 => (setField .data p v, false)
  | 0x6 => (setField .trigType p v, false)
  | 0x7 => (setField .localFifo p v, false)
  | 0x8 => (setField .sharedFifo p v, false)
  | 0x9 => (setField .downstream p v, false)
  | 0xA => (setField .parityBit p v, false)
  | 0xB => (updateParityWord p, false)
  | _ => (p, true)

/-- Copies of the insert unit cascaded, one per command, each one's `ins_pkt_o` on the next one's `ins_pkt_i`
(70_reset_and_hazards.md R234). -/
def cascade (cmds : List Cmd) (p : Word) : Word :=
  cmds.foldl (fun q c => (insertUnit q (cmdSel c) (cmdVal c)).1) p

/-- `INS`: drive `ins_pkt_i = H`, `ins_sel_i`, `ins_val_i`, then `H <- ins_pkt_o` (30_encoding.md R80); refused where
the unit is absent (42_insert.md R165).  The wires keep their values until the next `INS` (log 15). -/
def issueInsert (sel : Sel) (v : Val) (out : Word) (illegal : Bool) (s : State) : Host.Outcome State Fault Refusal :=
  if s.params.hasInsert then .next (setH out (setInsert s.h sel v out illegal s)) else .refused .insertUnitAbsent

/-! ### Fetching -/

/-- The next host step, and the state with it taken from the list; none at the program's end (30_encoding.md R80). -/
def fetch (s : State) : Option (HostStep × State) :=
  match s.program with
  | [] => none
  | hs :: rest => some (hs, setProgram rest s)

end Sys2Proof.Machine
end

