-- ==== Sys2Proof/Machine/Decoder.lean ====
section
/-! DEFINITION. The decoder rows: a read of each output port (40_decode.md R102 to R113, 41_parity.md R131, R132, R140). -/

namespace Sys2Proof.Machine

/-- `GET_TYPE`: read `type_o` (40_decode.md R102). -/
def execGetType (s : State) : Host.Outcome State Fault Refusal :=
  readPort (fun p o => { o with typeO := some (typeOf p) }) s

/-- `TYPE_DECODE`: read `is_data_o`, `is_error_o`, `is_write_o`, `is_read_o` (40_decode.md R103). -/
def execTypeDecode (s : State) : Host.Outcome State Fault Refusal :=
  readPort (fun p o =>
    { o with isDataO := some (isType 0#2 p), isErrorO := some (isType 1#2 p), isWriteO := some (isType 2#2 p),
             isReadO := some (isType 3#2 p) }) s

/-- `GET_CHIP`: read `chip_o` (40_decode.md R104). -/
def execGetChip (s : State) : Host.Outcome State Fault Refusal :=
  readPort (fun p o => { o with chipO := some (chipOf p) }) s

/-- `GET_CHANNEL`: read `channel_o` (40_decode.md R105). -/
def execGetChannel (s : State) : Host.Outcome State Fault Refusal :=
  readPort (fun p o => { o with channelO := some (channelOf p) }) s

/-- `GET_TIMESTAMP`: read `timestamp_o` (40_decode.md R106). -/
def execGetTimestamp (s : State) : Host.Outcome State Fault Refusal :=
  readPort (fun p o => { o with timestampO := some (timestampOf p) }) s

/-- `GET_FIRST`: read `first_o` (40_decode.md R107). -/
def execGetFirst (s : State) : Host.Outcome State Fault Refusal :=
  readPort (fun p o => { o with firstO := some (firstOf p) }) s

/-- `GET_DATA`: read `data_o` (40_decode.md R108). -/
def execGetData (s : State) : Host.Outcome State Fault Refusal :=
  readPort (fun p o => { o with dataO := some (dataOf p) }) s

/-- `GET_TRIG_TYPE`: read `trig_type_o` (40_decode.md R109). -/
def execGetTrigType (s : State) : Host.Outcome State Fault Refusal :=
  readPort (fun p o => { o with trigTypeO := some (trigTypeOf p) }) s

/-- `GET_LOCAL_FIFO`: read `local_fifo_o` (40_decode.md R110). -/
def execGetLocalFifo (s : State) : Host.Outcome State Fault Refusal :=
  readPort (fun p o => { o with localFifoO := some (localFifoOf p) }) s

/-- `GET_SHARED_FIFO`: read `shared_fifo_o` (40_decode.md R111). -/
def execGetSharedFifo (s : State) : Host.Outcome State Fault Refusal :=
  readPort (fun p o => { o with sharedFifoO := some (sharedFifoOf p) }) s

/-- `GET_DOWNSTREAM`: read `downstream_o` (40_decode.md R112). -/
def execGetDownstream (s : State) : Host.Outcome State Fault Refusal :=
  readPort (fun p o => { o with downstreamO := some (downstreamOf p) }) s

/-- `GET_PARITY_BIT`: read `parity_bit_o` (40_decode.md R113). -/
def execGetParityBit (s : State) : Host.Outcome State Fault Refusal :=
  readPort (fun p o => { o with parityBitO := some (parityBitOf p) }) s

/-- `GEN_PARITY`: read `parity_gen_o` (41_parity.md R131). -/
def execGenParity (s : State) : Host.Outcome State Fault Refusal :=
  readPort (fun p o => { o with parityGenO := some (parityGen s.params.xorTree p) }) s

/-- `VALID_PARITY`: read `parity_ok_o` (41_parity.md R132). -/
def execValidParity (s : State) : Host.Outcome State Fault Refusal :=
  readPort (fun p o => { o with parityOkO := some (parityOk s.params.xorTree p) }) s

/-- `UPDATE_PARITY_DEC`: read `pkt_fixed_o` (41_parity.md R140). -/
def execUpdateParityDec (s : State) : Host.Outcome State Fault Refusal :=
  readPort (fun p o => { o with pktFixedO := some (pktFixed s.params.xorTree p) }) s

end Sys2Proof.Machine
end

