-- ==== Sys2Proof/Machine/Insert.lean ====
section
/-! DEFINITION. The insert-unit rows: the eleven setters, `UPDATE_PARITY` and the reserved commands (42_insert.md,
41_parity.md R141).  The two FIFO-flag setters follow the setter contract, not the source's defect (90_conflicts.md C3). -/

namespace Sys2Proof.Machine

/-- `SET_TYPE` (42_insert.md R153). -/
def execSetType (v : Val) (s : State) : Host.Outcome State Fault Refusal :=
  issueInsert 0x0 v (setField .type s.h v) false s

/-- `SET_CHIP` (42_insert.md R154). -/
def execSetChip (v : Val) (s : State) : Host.Outcome State Fault Refusal :=
  issueInsert 0x1 v (setField .chip s.h v) false s

/-- `SET_CHANNEL` (42_insert.md R155). -/
def execSetChannel (v : Val) (s : State) : Host.Outcome State Fault Refusal :=
  issueInsert 0x2 v (setField .channel s.h v) false s

/-- `SET_TIMESTAMP` (42_insert.md R156). -/
def execSetTimestamp (v : Val) (s : State) : Host.Outcome State Fault Refusal :=
  issueInsert 0x3 v (setField .timestamp s.h v) false s

/-- `SET_FIRST` (42_insert.md R157). -/
def execSetFirst (v : Val) (s : State) : Host.Outcome State Fault Refusal :=
  issueInsert 0x4 v (setField .first s.h v) false s

/-- `SET_DATA` (42_insert.md R158). -/
def execSetData (v : Val) (s : State) : Host.Outcome State Fault Refusal :=
  issueInsert 0x5 v (setField .data s.h v) false s

/-- `SET_TRIG_TYPE` (42_insert.md R159). -/
def execSetTrigType (v : Val) (s : State) : Host.Outcome State Fault Refusal :=
  issueInsert 0x6 v (setField .trigType s.h v) false s

/-- `SET_LOCAL_FIFO` (42_insert.md R160). -/
def execSetLocalFifo (v : Val) (s : State) : Host.Outcome State Fault Refusal :=
  issueInsert 0x7 v (setField .localFifo s.h v) false s

/-- `SET_SHARED_FIFO` (42_insert.md R161). -/
def execSetSharedFifo (v : Val) (s : State) : Host.Outcome State Fault Refusal :=
  issueInsert 0x8 v (setField .sharedFifo s.h v) false s

/-- `SET_DOWNSTREAM` (42_insert.md R162). -/
def execSetDownstream (v : Val) (s : State) : Host.Outcome State Fault Refusal :=
  issueInsert 0x9 v (setField .downstream s.h v) false s

/-- `SET_PARITY_BIT` (42_insert.md R163). -/
def execSetParityBit (v : Val) (s : State) : Host.Outcome State Fault Refusal :=
  issueInsert 0xA v (setField .parityBit s.h v) false s

/-- `UPDATE_PARITY` (41_parity.md R141). -/
def execUpdateParity (v : Val) (s : State) : Host.Outcome State Fault Refusal :=
  issueInsert 0xB v (updateParityWord s.h) false s

/-- `RESERVED_C_F`: the word passes through and `ins_illegal_o = 1` (42_insert.md R164). -/
def execReservedCF (sel : Sel) (v : Val) (s : State) : Host.Outcome State Fault Refusal :=
  issueInsert sel v s.h true s

end Sys2Proof.Machine
end

