-- ==== Sys2Proof/Machine/Packet.lean ====
section
/-! DEFINITION. The packet rows: a packet of each kind applied to the decoder (30_encoding.md R63, R64; log 10).  The
field layout is the same for every kind, so each kind's meaning is the one application. -/

namespace Sys2Proof.Machine

/-- `PKT_DATA`. -/
def execPktData (p : Word) (s : State) : Host.Outcome State Fault Refusal := .next (applyPacket p s)

/-- `PKT_ERROR`. -/
def execPktError (p : Word) (s : State) : Host.Outcome State Fault Refusal := .next (applyPacket p s)

/-- `PKT_WRITE`. -/
def execPktWrite (p : Word) (s : State) : Host.Outcome State Fault Refusal := .next (applyPacket p s)

/-- `PKT_READ`. -/
def execPktRead (p : Word) (s : State) : Host.Outcome State Fault Refusal := .next (applyPacket p s)

end Sys2Proof.Machine
end

