-- ==== Sys2Proof/Machine/Dispatch.lean ====
section
/-! DEFINITION. One arm for each constructor of Instr. -/

namespace Sys2Proof.Machine

def exec (i : Instr) (s : State) : Host.Outcome State Fault Refusal :=
  match i with
  | .pktData p => Sys2Proof.Machine.execPktData p s
  | .pktError p => Sys2Proof.Machine.execPktError p s
  | .pktWrite p => Sys2Proof.Machine.execPktWrite p s
  | .pktRead p => Sys2Proof.Machine.execPktRead p s
  | .getType => Sys2Proof.Machine.execGetType s
  | .typeDecode => Sys2Proof.Machine.execTypeDecode s
  | .getChip => Sys2Proof.Machine.execGetChip s
  | .getChannel => Sys2Proof.Machine.execGetChannel s
  | .getTimestamp => Sys2Proof.Machine.execGetTimestamp s
  | .getFirst => Sys2Proof.Machine.execGetFirst s
  | .getData => Sys2Proof.Machine.execGetData s
  | .getTrigType => Sys2Proof.Machine.execGetTrigType s
  | .getLocalFifo => Sys2Proof.Machine.execGetLocalFifo s
  | .getSharedFifo => Sys2Proof.Machine.execGetSharedFifo s
  | .getDownstream => Sys2Proof.Machine.execGetDownstream s
  | .getParityBit => Sys2Proof.Machine.execGetParityBit s
  | .genParity => Sys2Proof.Machine.execGenParity s
  | .validParity => Sys2Proof.Machine.execValidParity s
  | .updateParityDec => Sys2Proof.Machine.execUpdateParityDec s
  | .setType v => Sys2Proof.Machine.execSetType v s
  | .setChip v => Sys2Proof.Machine.execSetChip v s
  | .setChannel v => Sys2Proof.Machine.execSetChannel v s
  | .setTimestamp v => Sys2Proof.Machine.execSetTimestamp v s
  | .setFirst v => Sys2Proof.Machine.execSetFirst v s
  | .setData v => Sys2Proof.Machine.execSetData v s
  | .setTrigType v => Sys2Proof.Machine.execSetTrigType v s
  | .setLocalFifo v => Sys2Proof.Machine.execSetLocalFifo v s
  | .setSharedFifo v => Sys2Proof.Machine.execSetSharedFifo v s
  | .setDownstream v => Sys2Proof.Machine.execSetDownstream v s
  | .setParityBit v => Sys2Proof.Machine.execSetParityBit v s
  | .updateParity v => Sys2Proof.Machine.execUpdateParity v s
  | .reservedCF sel v => Sys2Proof.Machine.execReservedCF sel v s

end Sys2Proof.Machine
end

