-- ==== Sys2Proof/Machine/HostSteps.lean ====
section
/-! DEFINITION. The host steps that are no row of the opcode table (30_encoding.md R80), and the pseudo-instructions
that expand to host steps (R81). -/

namespace Sys2Proof.Machine

/-- `LDW`: `H <-` the literal (30_encoding.md R80). -/
def hostLdw (w : Word) (s : State) : Host.Outcome State Fault Refusal := .next (setH w s)

/-- `LDB b0 … b7`: `H <- (b7, …, b0)` (30_encoding.md R80, 20_memory.md R40). -/
def hostLdb (b0 b1 b2 b3 b4 b5 b6 b7 : Byte) (s : State) : Host.Outcome State Fault Refusal :=
  .next (setH (packetOfBytes b0 b1 b2 b3 b4 b5 b6 b7) s)

/-- `DEC`: drive `pkt_i = H`, `OBS <-` all decoder outputs; refused when `P_OUT_REG = 1` (30_encoding.md R80). -/
def hostDec (s : State) : Host.Outcome State Fault Refusal :=
  if s.params.outReg then .refused .decWithRegister else .next (observe (setPktI s.h s))

/-- `CLK v, r`: drive `pkt_i = H`, `in_valid_i = v`, `rst = r`, one rising edge, `OBS <-` all decoder outputs after the
edge; refused when `P_OUT_REG = 0` (30_encoding.md R80). -/
def hostClk (v r : Bool) (s : State) : Host.Outcome State Fault Refusal :=
  if s.params.outReg then .next (observe (clockEdge v r (setPktI s.h s))) else .refused .clkWithoutRegister

/-- A read of `out_valid_o`, equal to `valid_q` (10_state.md R28): it faults before the first reset after power-up (93 S3,
60_exceptions.md R203).  The combinational build has no such port (10_state.md R26), so there the read observes nothing and
does not stop, since R203 lists no such stop.  DESIGN CHOICE (log 13; safe). -/
def hostReadOutValid (s : State) : Host.Outcome State Fault Refusal :=
  if s.params.outReg then
    match outValid s with
    | some b => .next (setObs { s.obs with outValidO := some b } s)
    | none => .fault .readBeforeReset
  else .next (setObs { s.obs with outValidO := none } s)

/-- No step is pending: the program has ended (30_encoding.md R80) and the host makes no move, so nothing changes.
DESIGN CHOICE (log 3; safe). -/
def hostIdle (s : State) : Host.Outcome State Fault Refusal := .next s

/-- `FIX` is `INS UPDATE_PARITY` (30_encoding.md R81). -/
def pseudoFix : HostStep := .code (.command (mkCmd 0 0xB))

/-- `CLR` is `LDW 0` (30_encoding.md R81). -/
def pseudoClr : HostStep := .ldw 0

/-- `INS SET_<f>, v` (30_encoding.md R80, R70). -/
def insSet (f : Field) (v : Val) : HostStep := .code (.command (mkCmd v (fieldSel f)))

/-- `BUILD f1=v1, …`: `CLR`, one `INS SET_<f>, v` per listed field in the order written, then `FIX`
(30_encoding.md R81). -/
def pseudoBuild (fvs : List (Field × Val)) : List HostStep :=
  pseudoClr :: (fvs.map (fun fv => insSet fv.1 fv.2) ++ [pseudoFix])

end Sys2Proof.Machine
end

