-- ==== Sys2Proof/Machine/Step.lean ====
section
/-! DEFINITION. One step of the machine: the host's next pending step is taken and carried out. -/

namespace Sys2Proof.Machine

/-- A host step carried out (30_encoding.md R80): an operation of the opcode table is decoded and executed. -/
def runHostStep (hs : HostStep) (s : State) : Host.Outcome State Fault Refusal :=
  match hs with
  | .ldw w => hostLdw w s
  | .ldb b0 b1 b2 b3 b4 b5 b6 b7 => hostLdb b0 b1 b2 b3 b4 b5 b6 b7 s
  | .dec => hostDec s
  | .clk v r => hostClk v r s
  | .readOutValid => hostReadOutValid s
  | .code c => exec (decode c) s

/-- One step: fetch the host's next step and run it; with none pending, nothing happens (log 3). -/
def step (s : State) : Host.Outcome State Fault Refusal :=
  match fetch s with
  | some (hs, s') => runHostStep hs s'
  | none => hostIdle s

/-- The state with an opcode-table word as the host's very next step (log 3, 11); unchanged for a number that is no
word of the block. -/
def State.withFetchWord (s : State) (nbits w : Nat) : State :=
  match tableCode nbits w with
  | some c => setProgram (.code c :: s.program) s
  | none => s

end Sys2Proof.Machine
end

