-- ==== Sys2Proof/Safety.lean ====
section
/-! DEFINITION. The terms the statements use: when the decoder's outputs show a packet, which operations read the
decoder or drive the insert unit, and the invariant of the machine. -/

namespace Sys2Proof.Machine

/-- The decoder's outputs are valid and decode the packet word `p`: with `P_OUT_REG = 0`, `p` is on `pkt_i`
(10_state.md R21); with `P_OUT_REG = 1`, a reset has been seen, `valid_q = 1` and `pkt_q` holds `p` (R28, R31). -/
abbrev State.Shows (s : State) (p : Word) : Prop :=
  (s.params.outReg = false ∧ s.pktI = p) ∨
  (s.params.outReg = true ∧ s.resetSeen = true ∧ s.validQ = some true ∧ s.pktQ = some p)

/-- The rows that read a decoder output port (30_encoding.md R67). -/
def readsDecoder : Instr → Bool
  | .getType | .typeDecode | .getChip | .getChannel | .getTimestamp | .getFirst | .getData | .getTrigType
  | .getLocalFifo | .getSharedFifo | .getDownstream | .getParityBit | .genParity | .validParity | .updateParityDec => true
  | .pktData _ | .pktError _ | .pktWrite _ | .pktRead _ => false
  | .setType _ | .setChip _ | .setChannel _ | .setTimestamp _ | .setFirst _ | .setData _ | .setTrigType _
  | .setLocalFifo _ | .setSharedFifo _ | .setDownstream _ | .setParityBit _ | .updateParity _ | .reservedCF _ _ => false

/-- The rows that are insert-unit commands (30_encoding.md R70, R72). -/
def isInsert : Instr → Bool
  | .setType _ | .setChip _ | .setChannel _ | .setTimestamp _ | .setFirst _ | .setData _ | .setTrigType _
  | .setLocalFifo _ | .setSharedFifo _ | .setDownstream _ | .setParityBit _ | .updateParity _ | .reservedCF _ _ => true
  | .pktData _ | .pktError _ | .pktWrite _ | .pktRead _ => false
  | .getType | .typeDecode | .getChip | .getChannel | .getTimestamp | .getFirst | .getData | .getTrigType
  | .getLocalFifo | .getSharedFifo | .getDownstream | .getParityBit | .genParity | .validParity | .updateParityDec => false

/-- The setter row of a field (30_encoding.md R70). -/
def setterOf : Field → Val → Instr
  | .type, v => .setType v
  | .chip, v => .setChip v
  | .channel, v => .setChannel v
  | .timestamp, v => .setTimestamp v
  | .first, v => .setFirst v
  | .data, v => .setData v
  | .trigType, v => .setTrigType v
  | .localFifo, v => .setLocalFifo v
  | .sharedFifo, v => .setSharedFifo v
  | .downstream, v => .setDownstream v
  | .parityBit, v => .setParityBit v

/-- An observed value, where there is one, is `a`. -/
abbrev SeenAs {α : Type} (x : Option α) (a : α) : Prop := ∀ b, x = some b → b = a

/-- Every data-port entry of an observation that holds a value holds the value of `o` (20_memory.md R44: an
observation never mixes two packets). -/
structure Obs.Agrees (x : Obs) (o : DecOut) : Prop where
  typeO       : SeenAs x.typeO o.typeO
  isDataO     : SeenAs x.isDataO o.isDataO
  isErrorO    : SeenAs x.isErrorO o.isErrorO
  isWriteO    : SeenAs x.isWriteO o.isWriteO
  isReadO     : SeenAs x.isReadO o.isReadO
  chipO       : SeenAs x.chipO o.chipO
  channelO    : SeenAs x.channelO o.channelO
  timestampO  : SeenAs x.timestampO o.timestampO
  firstO      : SeenAs x.firstO o.firstO
  dataO       : SeenAs x.dataO o.dataO
  trigTypeO   : SeenAs x.trigTypeO o.trigTypeO
  localFifoO  : SeenAs x.localFifoO o.localFifoO
  sharedFifoO : SeenAs x.sharedFifoO o.sharedFifoO
  downstreamO : SeenAs x.downstreamO o.downstreamO
  parityBitO  : SeenAs x.parityBitO o.parityBitO
  parityGenO  : SeenAs x.parityGenO o.parityGenO
  parityOkO   : SeenAs x.parityOkO o.parityOkO
  pktFixedO   : SeenAs x.pktFixedO o.pktFixedO

/-- The invariant of the machine.  It holds at reset and at power-up and every step keeps it. -/
structure State.Inv (s : State) : Prop where
  /-- The built parity tree is an XOR reduction over the 63 inputs (00_scope.md R8). -/
  tree : treeLegal s.params.xorTree = true
  /-- With `P_OUT_REG = 0` the block holds no state (10_state.md R21, R31). -/
  stateless : s.params.outReg = false → s.validQ = none ∧ s.pktQ = none ∧ s.resetSeen = false
  /-- After a reset `valid_q` has a value (10_state.md R29, R31). -/
  validKnown : s.resetSeen = true → s.validQ ≠ none
  /-- `valid_q = 1` only when `pkt_q` holds a captured packet (10_state.md R28). -/
  captured : s.validQ = some true → s.pktQ ≠ none
  /-- The insert unit's outputs are its function of its inputs (10_state.md R27). -/
  insertWires : (s.insPktO, s.insIllegalO) = insertUnit s.insPktI s.insSelI s.insValI
  /-- What the host has observed of `out_valid_o` is `valid_q`, after a reset (10_state.md R28, R31). -/
  seenValid : ∀ b, s.obs.outValidO = some b → s.params.outReg = true ∧ s.resetSeen = true ∧ s.validQ = some b
  /-- What the host has observed of the data outputs decodes one packet, the one they show (20_memory.md R44, R46); while
  they show none, nothing is held as observed (10_state.md R31). -/
  seenData : (∃ p, s.Shows p ∧ s.obs.Agrees (decoderOutputs s.params.xorTree p)) ∨
    s.obs = { Obs.empty with outValidO := s.obs.outValidO }

end Sys2Proof.Machine
end

