-- ==== Sys2Proof/Certificates/Slice0/Obligations.lean ====
section
/-! DEFINITION. The statements for the provers. -/

open Sys2Proof Sys2Proof.Machine

/-! ### Encoding -/

/-- Words written out from 30_encoding.md R63, R70, R71, R72 (values of 95_test_vectors.md) decode to their instructions. -/
def Obligations.WrittenOutWordsDecode : Prop :=
  decode (.packet 0x76C39234567854A8) = .pktData 0x76C39234567854A8 ∧
  decode (.packet 0x0000000000000001) = .pktError 0x0000000000000001 ∧
  decode (.packet 0x000000000000140A) = .pktWrite 0x000000000000140A ∧
  decode (.packet 0xFFFFFFFFFFFFFFFF) = .pktRead 0xFFFFFFFFFFFFFFFF ∧
  decode (.command 0x7FFFFFFFC) = .reservedCF 0xC 0x7FFFFFFF ∧
  decode (.command 0x00000FF1) = .setChip 0xFF ∧
  decode (.command 0x7FFFFFFF3) = .setTimestamp 0x7FFFFFFF ∧
  decode (.command 0x00000001A) = .setParityBit 0x1 ∧
  decode (.command 0x00000000B) = .updateParity 0x0 ∧
  decode (.command 0x00000005E) = .reservedCF 0xE 0x5 ∧
  decode (.port .chipO) = .getChip

/-- Every well-formed instruction is read back from its encoding, every operand at every value. -/
def Obligations.DecodeOfEncodeIsTheInstruction : Prop :=
  ∀ i : Instr, i.wellFormed = true → decode (encode i) = i

/-- Every packet word, command word and port has exactly one meaning: it decodes to a well-formed instruction whose
encoding it is. -/
def Obligations.EncodeOfDecodeIsTheCode : Prop :=
  ∀ c : Code, (decode c).wellFormed = true ∧ encode (decode c) = c

/-- R63: the packet kind is the type code `p[1:0]`, and all four codes are defined. -/
def Obligations.PacketKindIsTheTypeCode : Prop :=
  ∀ p : Word,
    (p.extractLsb' 0 2 = 0#2 → decode (.packet p) = .pktData p) ∧
    (p.extractLsb' 0 2 = 1#2 → decode (.packet p) = .pktError p) ∧
    (p.extractLsb' 0 2 = 2#2 → decode (.packet p) = .pktWrite p) ∧
    (p.extractLsb' 0 2 = 3#2 → decode (.packet p) = .pktRead p)

/-- R71: `CMD = (val << 4) | sel` drives `ins_sel_i` with `CMD[3:0]` and `ins_val_i` with `CMD[34:4]`; the value bits a
command does not use are ignored, and the canonical form has them 0. -/
def Obligations.CommandWordDrivesTheInsertPorts : Prop :=
  ∀ (c : Cmd) (s : State), s.params.hasInsert = true →
    ∃ t t', exec (decode (.command c)) s = .next t ∧
      t.insPktI = s.h ∧ t.insSelI = c.extractLsb' 0 4 ∧ t.insValI = c.extractLsb' 4 31 ∧
      c = (t.insValI.setWidth 35 <<< 4) ||| t.insSelI.setWidth 35 ∧
      exec (decode (.command c)).canonical s = .next t' ∧
      t'.insPktO = t.insPktO ∧ t'.insIllegalO = t.insIllegalO ∧ t'.insSelI = t.insSelI ∧
      (∀ i, (decode (.command c)).valueBits ≤ i → t'.insValI.getLsbD i = false)

/-- Every command word matches the mask and match of the row it decodes to, and no number matches the rows of two
different command codes (30_encoding.md R70, R72; spec/opcode_table.json). -/
def Obligations.CommandRowsCoverAndDoNotOverlap : Prop :=
  (∀ c : Cmd, ∃ m v, (decode (.command c)).tableRow = some (m, v) ∧ c.toNat &&& m = v) ∧
  (∀ i j : Instr, isInsert i = true → isInsert j = true → ∀ m v m' v' n : Nat,
    i.tableRow = some (m, v) → j.tableRow = some (m', v') → n &&& m = v → n &&& m' = v' → m = m' ∧ v = v')

/-- `INS SET_<f>, v` with the code of 30_encoding.md R70 is the setter row of the field, and the pseudo-instructions expand
as R81 says: `FIX` is `INS UPDATE_PARITY`, `CLR` is `LDW 0`, and `BUILD` is `CLR`, one `INS SET_<f>` per field in the order
written, then `FIX`. -/
def Obligations.SetStepsDecodeToTheirSetters : Prop :=
  (∀ f v, insSet f v = .code (.command (mkCmd v (fieldSel f))) ∧ decode (.command (mkCmd v (fieldSel f))) = setterOf f v) ∧
  pseudoFix = .code (.command 0xB) ∧ decode (.command 0xB) = .updateParity 0 ∧
  pseudoClr = .ldw 0x0000000000000000 ∧
  ∀ fvs : List (Field × Val),
    pseudoBuild fvs = [.ldw 0x0000000000000000] ++ fvs.map (fun fv => insSet fv.1 fv.2) ++ [.code (.command 0xB)]

/-! ### The step -/

/-- When the host's next step is an operation of the opcode table, the machine's step is exec of the decoded instruction
on the state with that step taken off the list; and a table word placed for fetching is the very next thing run. -/
def Obligations.StepRunsTheDecodedInstruction : Prop :=
  (∀ (s : State) (c : Code) (rest : List HostStep), s.program = .code c :: rest →
    step s = exec (decode c) { s with program := rest }) ∧
  (∀ (s : State) (nbits w : Nat) (i : Instr), decodeTableWord nbits w = some i →
    step (s.withFetchWord nbits w) = exec i s)

/-- With no step pending, nothing changes (the model's choice, log 3). -/
def Obligations.NoPendingStepChangesNothing : Prop :=
  ∀ s : State, s.program = [] → step s = .next s

/-- `LDW` loads `H` with the literal and changes nothing else (30_encoding.md R80). -/
def Obligations.LoadWordStep : Prop :=
  ∀ (s : State) (w : Word) (rest : List HostStep), s.program = .ldw w :: rest →
    step s = .next { s with h := w, program := rest }

/-- R40: `LDB` loads `H` so that byte `k` of the buffer is `H[8k+7:8k]`, and nothing else changes. -/
def Obligations.LoadBytesStep : Prop :=
  ∀ (s : State) (b0 b1 b2 b3 b4 b5 b6 b7 : Byte) (rest : List HostStep),
    s.program = .ldb b0 b1 b2 b3 b4 b5 b6 b7 :: rest →
    ∃ w : Word, step s = .next { s with h := w, program := rest } ∧
      w = b7 ++ b6 ++ b5 ++ b4 ++ b3 ++ b2 ++ b1 ++ b0 ∧
      [b0, b1, b2, b3, b4, b5, b6, b7] = (List.range 8).map (fun k => w.extractLsb' (8 * k) 8) ∧
      [b0, b1, b2, b3, b4, b5, b6, b7] = (List.range 8).map (packetByte w) ∧
      (∀ k j, k < 8 → j < 8 → (packetByte w k).getLsbD j = w.getLsbD (8 * k + j))

/-- `DEC` drives `pkt_i` with `H` and observes all decoder outputs of it, changing nothing else (30_encoding.md R80). -/
def Obligations.DecStepObservesAllOutputs : Prop :=
  ∀ (s : State) (rest : List HostStep), s.program = .dec :: rest → s.params.outReg = false →
    step s = .next { s with pktI := s.h, obs := obsOf none (decoderOutputs s.params.xorTree s.h), program := rest }

/-- R29: a rising edge with `P_OUT_REG = 1`: `rst` has priority, clears `valid_q` and keeps `pkt_q`; else `valid_q` takes
`in_valid_i`, and `pkt_i` is captured exactly when `in_valid_i = 1`.  Nothing but the pins, the two registers, the
reset mark and the observation changes. -/
def Obligations.ClockEdgeUpdatesTheRegisterStage : Prop :=
  ∀ (s : State) (v r : Bool) (rest : List HostStep), s.program = .clk v r :: rest → s.params.outReg = true →
    ∃ o : Obs, step s = .next { s with
      pktI := s.h, inValidI := v, rst := r,
      validQ := if r = true then some false else some v,
      pktQ := if r = true then s.pktQ else if v = true then some s.h else s.pktQ,
      resetSeen := s.resetSeen || r, obs := o, program := rest }

/-- What a clock step observes (20_memory.md R46, 10_state.md R31; the model's reading, log 8 and 9): after a capture, all
outputs of that packet with `out_valid_o = 1`; after a reset or an edge without a packet, `out_valid_o = 0` and no data;
before the first reset, nothing. -/
def Obligations.ClockStepObservation : Prop :=
  ∀ (s : State) (v r : Bool) (rest : List HostStep), s.program = .clk v r :: rest → s.params.outReg = true →
    ∃ t : State, step s = .next t ∧
      (r = true → t.obs = { Obs.empty with outValidO := some false }) ∧
      (r = false → s.resetSeen = true → v = true → t.obs = obsOf (some true) (decoderOutputs s.params.xorTree s.h)) ∧
      (r = false → s.resetSeen = true → v = false → t.obs = { Obs.empty with outValidO := some false }) ∧
      (r = false → s.resetSeen = false → t.obs = Obs.empty)

/-- A read of `out_valid_o` gives `valid_q` after a reset and faults before (10_state.md R28, R31; 93 S3).  That the read is a
step of its own, and that it observes nothing and does not stop where the port does not exist, is the model's choice
(log 13), and so is that the other entries of `OBS` stay (log 7).  Nothing else changes. -/
def Obligations.OutValidRead : Prop :=
  ∀ (s : State) (rest : List HostStep), s.program = .readOutValid :: rest →
    (s.params.outReg = true → s.resetSeen = true → ∀ b, s.validQ = some b →
      step s = .next { s with obs := { s.obs with outValidO := some b }, program := rest }) ∧
    (s.params.outReg = true → s.resetSeen = false → step s = .fault .readBeforeReset) ∧
    (s.params.outReg = false → step s = .next { s with obs := { s.obs with outValidO := none }, program := rest })

/-- `DEC` when `P_OUT_REG = 1` and `CLK` when `P_OUT_REG = 0` are refused (30_encoding.md R80, 60_exceptions.md R203). -/
def Obligations.StepsOfTheOtherBuildAreRefused : Prop :=
  ∀ (s : State) (v r : Bool) (rest : List HostStep),
    (s.program = .dec :: rest → s.params.outReg = true → step s = .refused .decWithRegister) ∧
    (s.program = .clk v r :: rest → s.params.outReg = false → step s = .refused .clkWithoutRegister)

/-- R165: without the insert unit every insert command is refused, and the decoder's `pkt_fixed_o` still gives the
parity-repaired word. -/
def Obligations.AbsentInsertUnitRefusesCommands : Prop :=
  ∀ s : State, s.params.hasInsert = false →
    (∀ i, isInsert i = true → exec i s = .refused .insertUnitAbsent) ∧
    (∀ p, s.Shows p → ∃ t, exec .updateParityDec s = .next t ∧ t.obs.pktFixedO = some (pktFixed s.params.xorTree p))

/-- The model stops only where 60_exceptions.md R203 says: a read of a decoder output faults in the registered build before
the first reset or while `valid_q = 0`, and the three host steps of the other builds are refused. -/
def Obligations.NothingElseStops : Prop :=
  ∀ s : State, s.Inv →
    (∀ f, step s = .fault f → s.params.outReg = true ∧ (s.resetSeen = false ∨ s.validQ = some false) ∧
      ∃ hs rest, s.program = hs :: rest ∧ (hs = .readOutValid ∨ ∃ q, hs = .code (.port q))) ∧
    (∀ r, step s = .refused r → ∃ hs rest, s.program = hs :: rest ∧
      ((s.params.hasInsert = false ∧ r = .insertUnitAbsent ∧ ∃ c, hs = .code (.command c)) ∨
       (s.params.outReg = false ∧ r = .clkWithoutRegister ∧ ∃ v b, hs = .clk v b) ∨
       (s.params.outReg = true ∧ r = .decWithRegister ∧ hs = .dec)))

/-! ### The decoder's reads -/

/-- Each getter completes wherever the decoder shows a packet and gives the field's bits (40_decode.md R102, R104 to R113).
That it changes only its own port's observation, and the other entries of `OBS` stay, is the model's choice (log 7). -/
def Obligations.GettersGiveTheirFieldsBits : Prop :=
  ∀ (s : State) (p : Word), s.Shows p →
    exec .getType s = .next { s with obs := { s.obs with typeO := some (p.extractLsb' 0 2) } } ∧
    exec .getChip s = .next { s with obs := { s.obs with chipO := some (p.extractLsb' 2 8) } } ∧
    exec .getChannel s = .next { s with obs := { s.obs with channelO := some (p.extractLsb' 10 6) } } ∧
    exec .getTimestamp s = .next { s with obs := { s.obs with timestampO := some (p.extractLsb' 16 31) } } ∧
    exec .getFirst s = .next { s with obs := { s.obs with firstO := some (p.extractLsb' 47 1) } } ∧
    exec .getData s = .next { s with obs := { s.obs with dataO := some (p.extractLsb' 48 8) } } ∧
    exec .getTrigType s = .next { s with obs := { s.obs with trigTypeO := some (p.extractLsb' 56 2) } } ∧
    exec .getLocalFifo s = .next { s with obs := { s.obs with localFifoO := some (p.extractLsb' 58 2) } } ∧
    exec .getSharedFifo s = .next { s with obs := { s.obs with sharedFifoO := some (p.extractLsb' 60 2) } } ∧
    exec .getDownstream s = .next { s with obs := { s.obs with downstreamO := some (p.extractLsb' 62 1) } } ∧
    exec .getParityBit s = .next { s with obs := { s.obs with parityBitO := some (p.extractLsb' 63 1) } }

/-- `TYPE_DECODE` gives the four comparisons of `p[1:0]` with the codes, exactly one of them 1 (40_decode.md R103).  That it
changes only these four observations, and the other entries of `OBS` stay, is the model's choice (log 7). -/
def Obligations.TypeDecodeIsOneHot : Prop :=
  ∀ (s : State) (p : Word), s.Shows p →
    exec .typeDecode s = .next { s with obs := { s.obs with
      isDataO := some (decide (p.extractLsb' 0 2 = 0#2)), isErrorO := some (decide (p.extractLsb' 0 2 = 1#2)),
      isWriteO := some (decide (p.extractLsb' 0 2 = 2#2)), isReadO := some (decide (p.extractLsb' 0 2 = 3#2)) } } ∧
    ([decide (p.extractLsb' 0 2 = 0#2), decide (p.extractLsb' 0 2 = 1#2), decide (p.extractLsb' 0 2 = 2#2),
      decide (p.extractLsb' 0 2 = 3#2)].count true = 1)

/-- For every legal parity tree `GEN_PARITY` gives `1 - (popcount(p[62:0]) mod 2)`, which is `~xor_reduce(p[62:0])`
(41_parity.md R131).  That it changes only its own port's observation, and the other entries of `OBS` stay, is the model's
choice (log 7). -/
def Obligations.GenParityGivesTheMissingParityBit : Prop :=
  ∀ (s : State) (p : Word), treeLegal s.params.xorTree = true → s.Shows p →
    exec .genParity s = .next { s with obs := { s.obs with
      parityGenO := some (BitVec.ofNat 1 (1 - popcount (p.extractLsb' 0 63) % 2)) } } ∧
    BitVec.ofNat 1 (1 - popcount (p.extractLsb' 0 63) % 2) = ~~~ BitVec.ofBool (xorReduce (p.extractLsb' 0 63))

/-- For every legal parity tree `VALID_PARITY` gives `(1 - (popcount(p[62:0]) mod 2)) == p[63]`, which is
`parity_gen_o == p[63]` and `xor_reduce(p[63:0])` (41_parity.md R132).  That it changes only its own port's observation, and
the other entries of `OBS` stay, is the model's choice (log 7). -/
def Obligations.ValidParityComparesTheParityBit : Prop :=
  ∀ (s : State) (p : Word), treeLegal s.params.xorTree = true → s.Shows p →
    exec .validParity s = .next { s with obs := { s.obs with
      parityOkO := some (decide (BitVec.ofNat 1 (1 - popcount (p.extractLsb' 0 63) % 2) = p.extractLsb' 63 1)) } } ∧
    decide (BitVec.ofNat 1 (1 - popcount (p.extractLsb' 0 63) % 2) = p.extractLsb' 63 1) =
      decide (parityGen s.params.xorTree p = p.extractLsb' 63 1) ∧
    decide (BitVec.ofNat 1 (1 - popcount (p.extractLsb' 0 63) % 2) = p.extractLsb' 63 1) = xorReduce p

/-- `UPDATE_PARITY_DEC` gives the word itself if its parity is valid and the word with bit 63 flipped otherwise; for every
legal parity tree that is `(parity_gen_o, p[62:0])` (41_parity.md R140).  That it changes only its own port's observation,
and the other entries of `OBS` stay, is the model's choice (log 7). -/
def Obligations.UpdateParityDecRepairsBit63 : Prop :=
  ∀ (s : State) (p : Word), treeLegal s.params.xorTree = true → s.Shows p →
    exec .updateParityDec s = .next { s with obs := { s.obs with
      pktFixedO := some (if parityOk s.params.xorTree p = true then p else p ^^^ 0x8000000000000000#64) } } ∧
    (if parityOk s.params.xorTree p = true then p else p ^^^ 0x8000000000000000#64) =
      parityGen s.params.xorTree p ++ p.extractLsb' 0 63

/-- In the registered build every read of a decoder data output faults before the first reset, and after it while
`valid_q = 0` or `pkt_q` holds no value (10_state.md R31, 60_exceptions.md R203, 93 S1 to S3). -/
def Obligations.DecoderReadsFaultWithoutAValidPacket : Prop :=
  ∀ (s : State) (i : Instr), readsDecoder i = true → s.params.outReg = true →
    (s.resetSeen = false → exec i s = .fault .readBeforeReset) ∧
    (s.resetSeen = true → s.validQ = some false → exec i s = .fault .dataOutputNotValid) ∧
    (s.resetSeen = true → s.validQ = some true → s.pktQ = none → exec i s = .fault .dataOutputNotValid)

/-- Reading a decoder output has no side effect and is idempotent: it changes the host's observation only, and reading
again changes nothing (20_memory.md R44). -/
def Obligations.ReadingHasNoSideEffect : Prop :=
  ∀ (s t : State) (i : Instr), readsDecoder i = true → exec i s = .next t →
    t = { s with obs := t.obs } ∧ exec i t = .next t

/-- In the registered build the outputs are those of `pkt_q`, not of the word now on `pkt_i` (10_state.md R28,
70_reset_and_hazards.md R232): driving the input pins changes nothing of what a read does.  Between two states with the same build,
registers and reset mark, whatever else differs, their earlier observations included, a read completes in both or in neither
and sets the same entries of `OBS` to the same values: reading in one gives what reading in the other gives from the same
earlier observation.  Nothing but `OBS` changes. -/
def Obligations.RegisteredReadsIgnoreTheInputPins : Prop :=
  (∀ (s t : State) (i : Instr) (p : Word) (v r : Bool), readsDecoder i = true → s.params.outReg = true →
    exec i s = .next t →
    exec i { s with pktI := p, inValidI := v, rst := r } = .next { t with pktI := p, inValidI := v, rst := r }) ∧
  (∀ (s s' t : State) (i : Instr), readsDecoder i = true → s.params.outReg = true →
    s'.params = s.params → s'.resetSeen = s.resetSeen → s'.validQ = s.validQ → s'.pktQ = s.pktQ → exec i s = .next t →
    ∃ o : Obs, exec i s' = .next { s' with obs := o } ∧ exec i { s with obs := s'.obs } = .next { s with obs := o })

/-- R42: `chip` is assembled from bytes 0 and 1 and `timestamp` from bytes 2 to 5, low-order bits from the lower byte;
no other field spans a byte boundary. -/
def Obligations.FieldsSpanningBytesAreAssembledLowFirst : Prop :=
  (∀ (s : State) (p : Word), s.Shows p → ∃ t u,
    exec .getChip s = .next t ∧
    t.obs.chipO = some ((packetByte p 1).extractLsb' 0 2 ++ (packetByte p 0).extractLsb' 2 6) ∧
    exec .getTimestamp s = .next u ∧
    u.obs.timestampO = some ((packetByte p 5).extractLsb' 0 7 ++ packetByte p 4 ++ packetByte p 3 ++ packetByte p 2)) ∧
  (∀ f, f ≠ .chip → f ≠ .timestamp → fieldLo f / 8 = (fieldLo f + fieldWidth f - 1) / 8)

/-- The eleven masks are pairwise disjoint, cover all 64 bits, and each is its field's width of ones at its position
(30_encoding.md R61). -/
def Obligations.FieldMasksPartitionTheWord : Prop :=
  (∀ f g : Field, f ∈ fields ∧ (f ≠ g → fieldMask f &&& fieldMask g = 0)) ∧
  fields.foldl (fun m f => m ||| fieldMask f) 0 = 0xFFFFFFFFFFFFFFFF ∧
  (fields.map fieldWidth).sum = 64 ∧
  (∀ f, (fieldMask f).toNat = (2 ^ fieldWidth f - 1) * 2 ^ fieldLo f)

/-! ### The packet rows -/

/-- In the combinational build a packet of any kind drives `pkt_i` and all its outputs are observed at once; nothing
else changes (10_state.md R21; the step is the model's choice, log 10). -/
def Obligations.PacketAppliedToTheCombinationalDecoder : Prop :=
  ∀ (s : State) (p : Word), s.params.outReg = false →
    exec (.pktData p) s = .next { s with pktI := p, obs := obsOf none (decoderOutputs s.params.xorTree p) } ∧
    exec (.pktError p) s = .next { s with pktI := p, obs := obsOf none (decoderOutputs s.params.xorTree p) } ∧
    exec (.pktWrite p) s = .next { s with pktI := p, obs := obsOf none (decoderOutputs s.params.xorTree p) } ∧
    exec (.pktRead p) s = .next { s with pktI := p, obs := obsOf none (decoderOutputs s.params.xorTree p) }

/-- In the registered build a packet of any kind is captured at one edge with `in_valid_i = 1`, `rst = 0`, and its
outputs are observed once a reset has been seen; nothing else changes (10_state.md R29; the step is the model's
choice, log 10). -/
def Obligations.PacketCapturedByTheRegisteredDecoder : Prop :=
  ∀ (s : State) (p : Word), s.params.outReg = true →
    ∃ t, t = { s with
        pktI := p, inValidI := true, rst := false, validQ := some true, pktQ := some p,
        obs := if s.resetSeen = true then obsOf (some true) (decoderOutputs s.params.xorTree p) else Obs.empty } ∧
      exec (.pktData p) s = .next t ∧ exec (.pktError p) s = .next t ∧
      exec (.pktWrite p) s = .next t ∧ exec (.pktRead p) s = .next t

/-- A packet row's kind is what the outputs report: the type code and exactly its one-hot output (30_encoding.md R63,
40_decode.md R103), in both builds (log 10). -/
def Obligations.PacketRowReportsItsKind : Prop :=
  ∀ (s : State) (p : Word), (s.params.outReg = false ∨ s.resetSeen = true) →
    (p.extractLsb' 0 2 = 0#2 → ∃ t, exec (.pktData p) s = .next t ∧ t.obs.typeO = some 0#2 ∧
      t.obs.isDataO = some true ∧ t.obs.isErrorO = some false ∧ t.obs.isWriteO = some false ∧ t.obs.isReadO = some false) ∧
    (p.extractLsb' 0 2 = 1#2 → ∃ t, exec (.pktError p) s = .next t ∧ t.obs.typeO = some 1#2 ∧
      t.obs.isDataO = some false ∧ t.obs.isErrorO = some true ∧ t.obs.isWriteO = some false ∧ t.obs.isReadO = some false) ∧
    (p.extractLsb' 0 2 = 2#2 → ∃ t, exec (.pktWrite p) s = .next t ∧ t.obs.typeO = some 2#2 ∧
      t.obs.isDataO = some false ∧ t.obs.isErrorO = some false ∧ t.obs.isWriteO = some true ∧ t.obs.isReadO = some false) ∧
    (p.extractLsb' 0 2 = 3#2 → ∃ t, exec (.pktRead p) s = .next t ∧ t.obs.typeO = some 3#2 ∧
      t.obs.isDataO = some false ∧ t.obs.isErrorO = some false ∧ t.obs.isWriteO = some false ∧ t.obs.isReadO = some true)

/-- An invalid packet is reported only as `parity_ok_o = 0`: the packet row completes and every field is still output, in
both builds (60_exceptions.md R201; log 10). -/
def Obligations.InvalidPacketIsStillDecoded : Prop :=
  ∀ (s : State) (i : Instr) (p : Word), (s.params.outReg = false ∨ s.resetSeen = true) → treeLegal s.params.xorTree = true →
    (i = .pktData p ∨ i = .pktError p ∨ i = .pktWrite p ∨ i = .pktRead p) → popcount p % 2 = 0 →
    ∃ t, exec i s = .next t ∧ t.obs.parityOkO = some false ∧
      t.obs.typeO = some (p.extractLsb' 0 2) ∧ t.obs.chipO = some (p.extractLsb' 2 8) ∧
      t.obs.channelO = some (p.extractLsb' 10 6) ∧ t.obs.timestampO = some (p.extractLsb' 16 31) ∧
      t.obs.firstO = some (p.extractLsb' 47 1) ∧ t.obs.dataO = some (p.extractLsb' 48 8) ∧
      t.obs.trigTypeO = some (p.extractLsb' 56 2) ∧ t.obs.localFifoO = some (p.extractLsb' 58 2) ∧
      t.obs.sharedFifoO = some (p.extractLsb' 60 2) ∧ t.obs.downstreamO = some (p.extractLsb' 62 1) ∧
      t.obs.parityBitO = some (p.extractLsb' 63 1)

/-- With `P_OUT_REG = 0` the outputs depend on the present inputs alone, whatever was applied before: two states of one
build give the same observation of one packet, and (in any build) the same insert outputs for one command on one word
(10_state.md R21, R27). -/
def Obligations.OutputsForgetHistory : Prop :=
  (∀ (s s' : State) (i : Instr) (p : Word), s.params = s'.params → s.params.outReg = false →
    (i = .pktData p ∨ i = .pktError p ∨ i = .pktWrite p ∨ i = .pktRead p) →
    ∃ t t', exec i s = .next t ∧ exec i s' = .next t' ∧ t.obs = t'.obs) ∧
  (∀ (s s' : State) (i : Instr), isInsert i = true → s.params.hasInsert = true → s'.params.hasInsert = true → s.h = s'.h →
    ∃ t t', exec i s = .next t ∧ exec i s' = .next t' ∧ t.insPktO = t'.insPktO ∧ t.insIllegalO = t'.insIllegalO)

/-! ### The insert unit -/

/-- R153 to R162, and the effect of R163: each setter completes wherever the insert unit is present, puts the low value bits at its field's
place and keeps every other bit of `H`, drives `ins_illegal_o = 0`, and changes nothing but the insert ports and `H`. -/
def Obligations.SettersWriteTheirFields : Prop :=
  ∀ (s : State) (v : Val), s.params.hasInsert = true →
    (∀ w : Word, w = s.h.extractLsb' 2 62 ++ v.extractLsb' 0 2 → exec (.setType v) s = .next { s with
      insPktI := s.h, insSelI := 0x0, insValI := v, insPktO := w, insIllegalO := false, h := w }) ∧
    (∀ w : Word, w = s.h.extractLsb' 10 54 ++ v.extractLsb' 0 8 ++ s.h.extractLsb' 0 2 → exec (.setChip v) s = .next { s with
      insPktI := s.h, insSelI := 0x1, insValI := v, insPktO := w, insIllegalO := false, h := w }) ∧
    (∀ w : Word, w = s.h.extractLsb' 16 48 ++ v.extractLsb' 0 6 ++ s.h.extractLsb' 0 10 → exec (.setChannel v) s = .next { s with
      insPktI := s.h, insSelI := 0x2, insValI := v, insPktO := w, insIllegalO := false, h := w }) ∧
    (∀ w : Word, w = s.h.extractLsb' 47 17 ++ v ++ s.h.extractLsb' 0 16 → exec (.setTimestamp v) s = .next { s with
      insPktI := s.h, insSelI := 0x3, insValI := v, insPktO := w, insIllegalO := false, h := w }) ∧
    (∀ w : Word, w = s.h.extractLsb' 48 16 ++ v.extractLsb' 0 1 ++ s.h.extractLsb' 0 47 → exec (.setFirst v) s = .next { s with
      insPktI := s.h, insSelI := 0x4, insValI := v, insPktO := w, insIllegalO := false, h := w }) ∧
    (∀ w : Word, w = s.h.extractLsb' 56 8 ++ v.extractLsb' 0 8 ++ s.h.extractLsb' 0 48 → exec (.setData v) s = .next { s with
      insPktI := s.h, insSelI := 0x5, insValI := v, insPktO := w, insIllegalO := false, h := w }) ∧
    (∀ w : Word, w = s.h.extractLsb' 58 6 ++ v.extractLsb' 0 2 ++ s.h.extractLsb' 0 56 → exec (.setTrigType v) s = .next { s with
      insPktI := s.h, insSelI := 0x6, insValI := v, insPktO := w, insIllegalO := false, h := w }) ∧
    (∀ w : Word, w = s.h.extractLsb' 60 4 ++ v.extractLsb' 0 2 ++ s.h.extractLsb' 0 58 → exec (.setLocalFifo v) s = .next { s with
      insPktI := s.h, insSelI := 0x7, insValI := v, insPktO := w, insIllegalO := false, h := w }) ∧
    (∀ w : Word, w = s.h.extractLsb' 62 2 ++ v.extractLsb' 0 2 ++ s.h.extractLsb' 0 60 → exec (.setSharedFifo v) s = .next { s with
      insPktI := s.h, insSelI := 0x8, insValI := v, insPktO := w, insIllegalO := false, h := w }) ∧
    (∀ w : Word, w = s.h.extractLsb' 63 1 ++ v.extractLsb' 0 1 ++ s.h.extractLsb' 0 62 → exec (.setDownstream v) s = .next { s with
      insPktI := s.h, insSelI := 0x9, insValI := v, insPktO := w, insIllegalO := false, h := w }) ∧
    (∀ w : Word, w = v.extractLsb' 0 1 ++ s.h.extractLsb' 0 63 → exec (.setParityBit v) s = .next { s with
      insPktI := s.h, insSelI := 0xA, insValI := v, insPktO := w, insIllegalO := false, h := w })

/-- R150: the general form of a setter, and bit by bit: a bit inside the field takes the value's bit whatever it held
before, a bit outside passes through. -/
def Obligations.SetterWritesExactlyItsFieldsBits : Prop :=
  ∀ (f : Field) (v : Val) (s : State), s.params.hasInsert = true →
    ∃ t, exec (setterOf f v) s = .next t ∧ t.insIllegalO = false ∧ t.h = t.insPktO ∧
      t.insPktO = (s.h &&& ~~~ fieldMask f) ||| ((v.setWidth (fieldWidth f)).setWidth 64 <<< fieldLo f) ∧
      ∀ i, i < 64 → t.insPktO.getLsbD i =
        if fieldLo f ≤ i ∧ i < fieldLo f + fieldWidth f then v.getLsbD (i - fieldLo f) else s.h.getLsbD i

/-- R151: a setter uses only the low `width_f` bits of its value: a wider value acts as the value modulo `2^width_f`, and
no value spills into another field. -/
def Obligations.SetterTakesItsValueModuloTheWidth : Prop :=
  ∀ (f : Field) (v : Val) (s : State), s.params.hasInsert = true →
    ∃ t t', exec (setterOf f v) s = .next t ∧
      exec (setterOf f (BitVec.ofNat 31 (v.toNat % 2 ^ fieldWidth f))) s = .next t' ∧
      t.insPktO = t'.insPktO ∧ t.insIllegalO = t'.insIllegalO ∧ t.h = t'.h ∧
      ∀ g, g ≠ f → getField g t.insPktO = getField g s.h

/-- R114: getters and setters are inverse on every field, and setting a field perturbs no other. -/
def Obligations.GettersAndSettersAreInverse : Prop :=
  ∀ (f : Field) (s : State), s.params.hasInsert = true →
    (∀ v : Val, v.toNat < 2 ^ fieldWidth f → ∃ t, exec (setterOf f v) s = .next t ∧ getField f t.h = v.setWidth 64) ∧
    (∃ t, exec (setterOf f ((getField f s.h).setWidth 31)) s = .next t ∧ t.h = s.h) ∧
    (∀ (v : Val) (g : Field), g ≠ f → ∃ t, exec (setterOf f v) s = .next t ∧ getField g t.h = getField g s.h)

/-- Setters of two different fields give the same word in either order (30_encoding.md R81). -/
def Obligations.SettersOfDifferentFieldsCommute : Prop :=
  ∀ (f g : Field) (v w : Val) (s : State), f ≠ g → s.params.hasInsert = true →
    ∃ t t' u u', exec (setterOf f v) s = .next t ∧ exec (setterOf g w) t = .next t' ∧
      exec (setterOf g w) s = .next u ∧ exec (setterOf f v) u = .next u' ∧ t'.h = u'.h

/-- R152: a setter does not update parity: it leaves bit 63 unless it is `SET_PARITY_BIT`, and the output's validity is the
input's, flipped when the value differs from the old one in an odd number of bits. -/
def Obligations.SettersDoNotUpdateParity : Prop :=
  ∀ (f : Field) (v : Val) (s : State), s.params.hasInsert = true → treeLegal s.params.xorTree = true →
    ∃ t, exec (setterOf f v) s = .next t ∧
      (f ≠ .parityBit → t.insPktO.getLsbD 63 = s.h.getLsbD 63 ∧
        parityOk s.params.xorTree t.insPktO =
          (parityOk s.params.xorTree s.h ^^
            decide (popcount (getField f s.h ^^^ (v.setWidth (fieldWidth f)).setWidth 64) % 2 = 1)))

/-- R163: `SET_PARITY_BIT` writes the stored bit with no check: the result is valid exactly when the bit written is
`~xor_reduce` of the other 63, for every legal parity tree. -/
def Obligations.SetParityBitIsUnchecked : Prop :=
  ∀ (s : State) (v : Val) (w : Word), s.params.hasInsert = true → w = v.extractLsb' 0 1 ++ s.h.extractLsb' 0 63 →
    exec (.setParityBit v) s = .next { s with
      insPktI := s.h, insSelI := 0xA, insValI := v, insPktO := w, insIllegalO := false, h := w } ∧
    ∀ t, treeLegal t = true → (parityOk t w = true ↔ v.getLsbD 0 = !xorReduce (s.h.extractLsb' 0 63))

/-- R141: the insert unit's `UPDATE_PARITY` gives `(~xor_reduce(p[62:0]), p[62:0])`, ignores its value, drives
`ins_illegal_o = 0`, and changes nothing but the insert ports and `H`; it is the function of `pkt_fixed_o` (R140), for
every legal parity tree. -/
def Obligations.UpdateParityCommand : Prop :=
  ∀ (s : State) (v : Val) (w : Word), s.params.hasInsert = true →
    w = BitVec.ofBool (!xorReduce (s.h.extractLsb' 0 63)) ++ s.h.extractLsb' 0 63 →
    exec (.updateParity v) s = .next { s with
      insPktI := s.h, insSelI := 0xB, insValI := v, insPktO := w, insIllegalO := false, h := w } ∧
    ∀ t, treeLegal t = true → w = pktFixed t s.h

/-- R164: a reserved command passes the word through and drives `ins_illegal_o = 1`; its value is ignored; `H` stays, and
nothing but the insert ports changes. -/
def Obligations.ReservedCommandsPassThrough : Prop :=
  ∀ (s : State) (sel : Sel) (v : Val), s.params.hasInsert = true → (sel = 0xC ∨ sel = 0xD ∨ sel = 0xE ∨ sel = 0xF) →
    exec (decode (.command (mkCmd v sel))) s = exec (.reservedCF sel v) s ∧
    exec (.reservedCF sel v) s = .next { s with
      insPktI := s.h, insSelI := sel, insValI := v, insPktO := s.h, insIllegalO := true }

/-- R142: in both forms the updated word is valid, keeps bits 62..0, is a fixed point of the update, and differs from an
invalid word in bit 63 alone (from a valid one nowhere). -/
def Obligations.UpdateParityRepairsOnlyBit63 : Prop :=
  ∀ (s : State) (v : Val) (p : Word), treeLegal s.params.xorTree = true → s.params.hasInsert = true → s.Shows p →
    (∃ t t', exec (.updateParity v) s = .next t ∧ exec (.updateParity v) t = .next t' ∧
      parityOk s.params.xorTree t.h = true ∧ t.h.extractLsb' 0 63 = s.h.extractLsb' 0 63 ∧ t'.h = t.h ∧
      t.h = (if parityOk s.params.xorTree s.h = true then s.h else s.h ^^^ 0x8000000000000000#64)) ∧
    (∃ u w, exec .updateParityDec s = .next u ∧ u.obs.pktFixedO = some w ∧
      parityOk s.params.xorTree w = true ∧ w.extractLsb' 0 63 = p.extractLsb' 0 63 ∧
      pktFixed s.params.xorTree w = w ∧ (parityOk s.params.xorTree p = false → w = p ^^^ 0x8000000000000000#64))

/-- Running a list of insert commands step by step leaves in `H` what the cascaded units give in one cycle
(70_reset_and_hazards.md R234; `cascade` stands for the copies of the unit, log 18), and never stops. -/
def Obligations.CascadedCommandsEqualTheSequence : Prop :=
  ∀ (cmds : List Cmd) (s : State) (rest : List HostStep), s.params.hasInsert = true →
    s.program = cmds.map (fun c => .code (.command c)) ++ rest →
    ∃ t, Host.Core.run Sys2Proof.core cmds.length s = .next t ∧ t.h = cascade cmds s.h ∧ t.program = rest

/-- Running a `BUILD` (30_encoding.md R81) of any fields, the parity bit and repeated fields among them, completes after all
its steps: the word in `H` is valid, and each field but the parity bit holds the last value listed for it, truncated, or 0.
Where no field is listed twice, running the same fields in another order, from any other state, gives the same word. -/
def Obligations.BuildGivesAValidPacketInAnyOrder : Prop :=
  ∀ (fvs : List (Field × Val)) (s : State) (rest : List HostStep), s.params.hasInsert = true →
    s.program = pseudoBuild fvs ++ rest →
    ∃ t, Host.Core.run Sys2Proof.core (fvs.length + 2) s = .next t ∧ t.program = rest ∧ xorReduce t.h = true ∧
      (∀ f, f ≠ .parityBit →
        getField f t.h = (((fvs.reverse.lookup f).getD 0).setWidth (fieldWidth f)).setWidth 64) ∧
      (∀ (fvs' : List (Field × Val)) (s' : State) (rest' : List HostStep), (fvs.map Prod.fst).Nodup → fvs.Perm fvs' →
        s'.params.hasInsert = true → s'.program = pseudoBuild fvs' ++ rest' →
        ∃ t', Host.Core.run Sys2Proof.core (fvs'.length + 2) s' = .next t' ∧ t'.program = rest' ∧ t'.h = t.h)

/-- The insert unit and the decoder are not connected: an insert command leaves the block's registers, the decoder's
pins and the host's observation as they were, and a decoder or packet row leaves the insert ports and `H`
(70_reset_and_hazards.md R234).  Neither changes the build or the pending steps.  That a packet row leaves `H` is the model's
choice (log 10), and so is that the insert ports hold until the next command (log 15). -/
def Obligations.InsertUnitAndDecoderAreNotConnected : Prop :=
  ∀ (s t : State) (i : Instr), exec i s = .next t →
    t.params = s.params ∧ t.program = s.program ∧
    (isInsert i = true → t.validQ = s.validQ ∧ t.pktQ = s.pktQ ∧ t.resetSeen = s.resetSeen ∧ t.pktI = s.pktI ∧
      t.inValidI = s.inValidI ∧ t.rst = s.rst ∧ t.obs = s.obs) ∧
    (isInsert i = false → t.insPktI = s.insPktI ∧ t.insSelI = s.insSelI ∧ t.insValI = s.insValI ∧
      t.insPktO = s.insPktO ∧ t.insIllegalO = s.insIllegalO ∧ t.h = s.h)

/-! ### Parity -/

/-- R136: every legal shape of the parity tree computes the same function, the XOR of the 63 covered bits, which the
generator inverts and the validator XORs with `p[63]`; the default tree is legal, of depth 6, with 63 two-input gates
before the pad is optimised away, and follows `t_k[i] = t_(k-1)[2i] ^ t_(k-1)[2i+1]` from `t_0`.  Which shapes are legal
(gates of any number of inputs) is log 2. -/
def Obligations.EveryParityTreeComputesTheXor : Prop :=
  (∀ (t : XorTree) (p : Word), treeLegal t = true →
    treeXor t p = xorReduce (p.extractLsb' 0 63) ∧
    parityGen t p = ~~~ BitVec.ofBool (xorReduce (p.extractLsb' 0 63)) ∧
    parityOk t p = (xorReduce (p.extractLsb' 0 63) ^^ p.getLsbD 63)) ∧
  defaultTree = balanced 6 0 ∧ treeLegal defaultTree = true ∧ treeDepth defaultTree = 6 ∧ treeGates defaultTree = 63 ∧
  (∀ k i, balanced (k + 1) i = .gate (.cons (balanced k (2 * i)) (.cons (balanced k (2 * i + 1)) .nil))) ∧
  (∀ p : Word,
    (∀ i, i < 63 → treeXor (balanced 0 i) p = p.getLsbD i) ∧ treeXor (balanced 0 63) p = false ∧
    (∀ k i, treeXor (balanced (k + 1) i) p = (treeXor (balanced k (2 * i)) p ^^ treeXor (balanced k (2 * i + 1)) p)))

/-- R133: a packet is valid exactly when the number of its 1 bits is odd (the sense 90_conflicts.md C1 settles). -/
def Obligations.ValidPacketsHaveOddPopcount : Prop :=
  ∀ (s : State) (p : Word), treeLegal s.params.xorTree = true → s.Shows p →
    ∃ t, exec .validParity s = .next t ∧ (t.obs.parityOkO = some true ↔ popcount p % 2 = 1) ∧
      (t.obs.parityOkO = some false ↔ popcount p % 2 = 0)

/-- R134: flipping any one bit, bit 63 included, toggles validity; flipping an even number of bits leaves it. -/
def Obligations.SingleBitFlipTogglesValidity : Prop :=
  ∀ (t : XorTree) (p : Word), treeLegal t = true →
    (∀ i, i < 64 → parityOk t (p ^^^ ((1 : Word) <<< i)) = !parityOk t p) ∧
    (∀ d : Word, popcount d % 2 = 0 → parityOk t (p ^^^ d) = parityOk t p)

/-- R135: the four boundary packets, with the default tree. -/
def Obligations.BoundaryPacketsParity : Prop :=
  (popcount (covered 0x0000000000000000) = 0 ∧ parityGen defaultTree 0x0000000000000000 = 1 ∧
    parityOk defaultTree 0x0000000000000000 = false) ∧
  (popcount (covered 0x8000000000000000) = 0 ∧ parityGen defaultTree 0x8000000000000000 = 1 ∧
    parityOk defaultTree 0x8000000000000000 = true) ∧
  (popcount (covered 0x7FFFFFFFFFFFFFFF) = 63 ∧ parityGen defaultTree 0x7FFFFFFFFFFFFFFF = 0 ∧
    parityOk defaultTree 0x7FFFFFFFFFFFFFFF = true) ∧
  (popcount (covered 0xFFFFFFFFFFFFFFFF) = 63 ∧ parityGen defaultTree 0xFFFFFFFFFFFFFFFF = 0 ∧
    parityOk defaultTree 0xFFFFFFFFFFFFFFFF = false)

/-! ### Whole-machine rules -/

/-- The block's reset values (10_state.md R31): `valid_q = 0` and `pkt_q` without a value where the registers exist, no
register otherwise; at power-up neither holds a value; and the default parameters (00_scope.md R8). -/
def Obligations.ResetValues : Prop :=
  (∀ b : Params, b.outReg = true → (State.resetOf b).validQ = some false ∧ (State.resetOf b).pktQ = none) ∧
  (∀ b : Params, b.outReg = false → (State.resetOf b).validQ = none ∧ (State.resetOf b).pktQ = none) ∧
  (∀ b : Params, (State.powerUp b).validQ = none ∧ (State.powerUp b).pktQ = none) ∧
  State.reset.params.outReg = false ∧ State.reset.params.hasInsert = true ∧ State.reset.params.xorTree = balanced 6 0

/-- The invariant holds at reset and at power-up of every build with a legal parity tree, and at the machine's reset. -/
def Obligations.InvariantHoldsAtReset : Prop :=
  State.reset.Inv ∧ ∀ b : Params, treeLegal b.xorTree = true → (State.resetOf b).Inv ∧ (State.powerUp b).Inv

/-- Every step keeps the invariant: the build stays legal, the register stage is absent or consistent, the insert unit's
wires are its function of its inputs, and what the host has observed decodes one packet, the one shown. -/
def Obligations.EveryStepKeepsTheInvariant : Prop :=
  ∀ s t : State, s.Inv → step s = .next t → t.Inv

/-- No step changes the build parameters: no mode can be switched at run time (10_state.md R25, 70_reset_and_hazards.md R222). -/
def Obligations.NoStepChangesTheBuild : Prop :=
  ∀ s t : State, step s = .next t → t.params = s.params

/-- `pkt_q` changes only by capturing the word on `pkt_i` at an edge with `in_valid_i = 1` and `rst = 0`, which leaves
`valid_q = 1`; neither a reset nor an edge without a packet nor any other step writes it (10_state.md R29, R31). -/
def Obligations.PktQChangesOnlyByCapture : Prop :=
  ∀ s t : State, step s = .next t → t.pktQ ≠ s.pktQ →
    s.params.outReg = true ∧ t.inValidI = true ∧ t.rst = false ∧ t.validQ = some true ∧ t.pktQ = some t.pktI
end

