-- ==== Sys2Proof/Laws/Bits.lean ====
section
/-! SUPPORT. Bit-level facts about the field accessors, population count, XOR reduction, the parity trees and the command
word. -/

namespace Sys2Proof.Machine

/-! ### The command word -/

@[simp] theorem cmdSel_mkCmd (v : Val) (sel : Sel) : cmdSel (mkCmd v sel) = sel :=
  BitVec.extractLsb'_append_eq_right

@[simp] theorem cmdVal_mkCmd (v : Val) (sel : Sel) : cmdVal (mkCmd v sel) = v :=
  BitVec.extractLsb'_append_eq_left

@[simp] theorem mkCmd_cmdVal_cmdSel (c : Cmd) : mkCmd (cmdVal c) (cmdSel c) = c := by
  refine BitVec.eq_of_getLsbD_eq fun i hi => ?_
  simp only [mkCmd, cmdVal, cmdSel, BitVec.getLsbD_append, BitVec.getLsbD_extractLsb']
  by_cases h : i < 4
  · simp [h]
  · have : i - 4 < 31 := by omega
    simp [h, this, show 4 + (i - 4) = i by omega]

/-! ### Bytes -/

theorem toNat_append_eq {m n : Nat} (x : BitVec m) (y : BitVec n) :
    (x ++ y).toNat = x.toNat * 2 ^ n + y.toNat := by
  rw [BitVec.toNat_append, ← Nat.shiftLeft_add_eq_or_of_lt y.isLt, Nat.shiftLeft_eq]

theorem toNat_packetOfBytes (b0 b1 b2 b3 b4 b5 b6 b7 : Byte) :
    (packetOfBytes b0 b1 b2 b3 b4 b5 b6 b7).toNat = natOfBytes [b0, b1, b2, b3, b4, b5, b6, b7] := by
  simp only [packetOfBytes, toNat_append_eq, natOfBytes]
  omega

theorem natOfBytes_bytesOfNat (n w : Nat) (h : w < 256 ^ n) : natOfBytes (bytesOfNat n w) = w := by
  induction n generalizing w with
  | zero => rw [Nat.pow_zero] at h; simp only [bytesOfNat, natOfBytes]; omega
  | succ n ih =>
    rw [Nat.pow_succ] at h
    simp only [bytesOfNat, natOfBytes, BitVec.toNat_ofNat, ih (w / 256) (by omega)]
    omega

@[simp] theorem length_bytesOfNat (n w : Nat) : (bytesOfNat n w).length = n := by
  induction n generalizing w <;> simp [bytesOfNat, *]

theorem getLsbD_packetByte (p : Word) (k j : Nat) :
    (packetByte p k).getLsbD j = (decide (j < 8) && p.getLsbD (8 * k + j)) := by
  simp only [packetByte, BitVec.getLsbD_extractLsb']

theorem decodePacketBytes_bytesOfNat {w : Nat} (h : w < 2 ^ 64) :
    decodePacketBytes (bytesOfNat 8 w) = .ok (decode (.packet (BitVec.ofNat 64 w))) := by
  have e := natOfBytes_bytesOfNat 8 w (by omega)
  simp only [bytesOfNat] at e ⊢
  rw [← toNat_packetOfBytes] at e
  exact congrArg (fun q => Except.ok (decode (.packet q)))
    (BitVec.eq_of_toNat_eq (e.trans (by rw [BitVec.toNat_ofNat, Nat.mod_eq_of_lt h])))

theorem decodeCommandBytes_bytesOfNat {w : Nat} (h : w < 2 ^ 35) :
    decodeCommandBytes (bytesOfNat 5 w) = .ok (decode (.command (BitVec.ofNat 35 w))) := by
  rw [decodeCommandBytes, if_pos (length_bytesOfNat 5 w), natOfBytes_bytesOfNat 5 w (by omega), if_pos h]

/-- The byte decoders read an opcode-table word as `tableCode` lays it out. -/
theorem decodeTableWord_eq (nbits w : Nat) : decodeTableWord nbits w = (tableCode nbits w).map decode := by
  unfold decodeTableWord tableCode
  by_cases hn : 40 < nbits
  · rw [if_pos hn, if_pos hn]
    by_cases h : w < 2 ^ 64
    · rw [if_pos h, if_pos h, decodePacketBytes_bytesOfNat h]; rfl
    · rw [if_neg h, if_neg h]; rfl
  · rw [if_neg hn, if_neg hn]
    by_cases h : w < 2 ^ 35
    · rw [if_pos (by omega), if_pos h, decodeCommandBytes_bytesOfNat h]; rfl
    · rw [if_neg h]
      by_cases h' : w < 2 ^ 40
      · rw [if_pos h', decodeCommandBytes, if_pos (length_bytesOfNat 5 w), natOfBytes_bytesOfNat 5 w (by omega), if_neg h]
        rfl
      · rw [if_neg h']; rfl

/-! ### Fields -/

theorem getLsbD_fieldMask (f : Field) (i : Nat) :
    (fieldMask f).getLsbD i = decide (fieldLo f ≤ i ∧ i < fieldLo f + fieldWidth f) := by
  by_cases h : i < 64
  · revert i
    cases f <;> decide
  · rw [BitVec.getLsbD_of_ge _ _ (by omega)]
    have : fieldLo f + fieldWidth f ≤ 64 := by cases f <;> decide
    exact (decide_eq_false (by omega)).symm

theorem getLsbD_getField (f : Field) (p : Word) (i : Nat) :
    (getField f p).getLsbD i = (decide (i < fieldWidth f) && p.getLsbD (fieldLo f + i)) := by
  simp only [getField, BitVec.getLsbD_ushiftRight, BitVec.getLsbD_and, getLsbD_fieldMask, Bool.and_comm (p.getLsbD _)]
  congr 1
  exact decide_eq_decide.mpr (by omega)

theorem getLsbD_truncField (f : Field) (v : Val) (i : Nat) :
    (truncField f v).getLsbD i = (decide (i < fieldWidth f) && v.getLsbD i) := by
  have : fieldWidth f ≤ 64 := by cases f <;> decide
  simp only [truncField, BitVec.getLsbD_setWidth]
  by_cases h : i < fieldWidth f
  · simp [h, show i < 64 by omega]
  · simp [h]

theorem getLsbD_setField (f : Field) (p : Word) (v : Val) (i : Nat) (hi : i < 64) :
    (setField f p v).getLsbD i =
      if fieldLo f ≤ i ∧ i < fieldLo f + fieldWidth f then v.getLsbD (i - fieldLo f) else p.getLsbD i := by
  simp only [setField, BitVec.getLsbD_or, BitVec.getLsbD_and, BitVec.getLsbD_not, BitVec.getLsbD_shiftLeft,
    getLsbD_fieldMask, getLsbD_truncField, hi, decide_true, Bool.true_and]
  split_ifs with h
  · simp [h, show ¬ i < fieldLo f by omega, show i - fieldLo f < fieldWidth f by omega]
  · by_cases hl : i < fieldLo f
    · simp [hl, show ¬ fieldLo f ≤ i by omega]
    · simp [h, show ¬ i - fieldLo f < fieldWidth f by omega]

/-! ### Population count and XOR -/

theorem foldl_xor_list (l : List Nat) (g : Nat → Bool) (a : Bool) :
    l.foldl (fun b i => b ^^ g i) a = (a ^^ decide (l.countP g % 2 = 1)) := by
  induction l generalizing a with
  | nil => simp
  | cons i l ih =>
    rw [List.foldl_cons, ih, List.countP_cons]
    rcases Nat.mod_two_eq_zero_or_one (l.countP g) with h | h <;> cases hg : g i <;> cases a <;>
      simp [Nat.add_mod, h]

/-- `xor_reduce(v)` "equals `popcount(v) mod 2`" (00_scope.md R10). -/
theorem xorReduce_eq_popcount {n : Nat} (v : BitVec n) : xorReduce v = decide (popcount v % 2 = 1) := by
  unfold xorReduce popcount
  rw [foldl_xor_list]
  simp

/-- `1 - (popcount(v) mod 2)` "= ~xor_reduce(v)" (41_parity.md R131). -/
theorem ofNat_one_sub_popcount {n : Nat} (v : BitVec n) :
    BitVec.ofNat 1 (1 - popcount v % 2) = BitVec.ofBool (!xorReduce v) := by
  rw [xorReduce_eq_popcount]
  rcases Nat.mod_two_eq_zero_or_one (popcount v) with h | h <;> rw [h] <;> rfl

/-- One gate's step in the parity of a count. -/
theorem xor_decide_odd (a b : Nat) : (decide (a % 2 = 1) ^^ decide (b % 2 = 1)) = decide ((a + b) % 2 = 1) := by
  rcases Nat.mod_two_eq_zero_or_one a with h | h <;> rcases Nat.mod_two_eq_zero_or_one b with h' | h' <;>
    simp [Nat.add_mod, h, h']

mutual

/-- A structure outputs the parity of the number of its inputs that are 1. -/
theorem treeXor_eq_countP (t : XorTree) (p : Word) :
    treeXor t p = decide ((treeInputs t).countP (p.getLsbD ·) % 2 = 1) := by
  cases t with
  | input i => cases h : p.getLsbD i <;> simp [treeXor, treeInputs, h]
  | pad => simp [treeXor, treeInputs]
  | gate g => rw [treeXor, treeInputs, gateXor_eq_countP g p]

/-- A gate outputs the parity of the number of inputs below it that are 1. -/
theorem gateXor_eq_countP (g : XorGate) (p : Word) :
    gateXor g p = decide ((gateInputs g).countP (p.getLsbD ·) % 2 = 1) := by
  cases g with
  | nil => simp [gateXor, gateInputs]
  | cons t g =>
    rw [gateXor, gateInputs, treeXor_eq_countP t p, gateXor_eq_countP g p, List.countP_append, xor_decide_odd]

end

@[simp] theorem treeXor_gate2 (l r : XorTree) (p : Word) : treeXor (gate2 l r) p = (treeXor l p ^^ treeXor r p) := by
  simp [gate2, treeXor, gateXor]

/-- A count splits into the elements equal to `n` and the others. -/
theorem countP_filter_ne (f : Nat → Bool) (n : Nat) (l : List Nat) :
    l.countP f = (l.filter (· != n)).countP f + if f n then l.count n else 0 := by
  induction l with
  | nil => simp
  | cons a l ih =>
    rw [List.countP_cons, List.count_cons, ih]
    rcases Decidable.em (a = n) with rfl | h
    · cases f a <;> simp [Nat.add_assoc]
    · cases hf : f a <;> simp [hf, h, Nat.add_right_comm]

/-- A list in which the numbers below `n`, and no others, occur oddly often counts like their range, modulo 2. -/
theorem countP_mod_two_of_count (f : Nat → Bool) (n : Nat) (l : List Nat) (hl : ∀ i ∈ l, i < n)
    (hc : ∀ i, i < n → l.count i % 2 = 1) : l.countP f % 2 = (List.range n).countP f % 2 := by
  induction n generalizing l with
  | zero =>
    rw [List.eq_nil_iff_forall_not_mem.mpr fun a ha => absurd (hl a ha) (by omega)]
    rfl
  | succ n ih =>
    have h := ih (l.filter (· != n))
      (fun i hi => by have := List.mem_filter.mp hi; have := hl i this.1; simp at *; omega)
      (fun i hi => by rw [List.count_filter (by simp; omega)]; exact hc i (by omega))
    rw [countP_filter_ne f n l, List.range_succ, List.countP_append, Nat.add_mod, h, Nat.add_mod (List.countP f (List.range n))]
    by_cases hf : f n = true <;> simp [hf, hc n (by omega)]

/-- A legal structure's reads count, modulo 2, as the 63 inputs of parity, each once. -/
theorem countP_treeInputs {t : XorTree} (h : treeLegal t = true) (f : Nat → Bool) :
    (treeInputs t).countP f % 2 = (List.range 63).countP f % 2 := by
  simp only [treeLegal, Bool.and_eq_true, List.all_eq_true, List.mem_range, decide_eq_true_eq, beq_iff_eq] at h
  exact countP_mod_two_of_count f 63 _ h.1 h.2

end Sys2Proof.Machine
end

