-- ==== Sys2Proof/Laws/State.lean ====
section
/-! SUPPORT. One lemma for each field of the state under each update of Machine/Ops.lean. -/

namespace Sys2Proof.Machine

section setH
variable (w : Word) (s : State)

@[simp] theorem setH_params : (setH w s).params = s.params := rfl
@[simp] theorem setH_validQ : (setH w s).validQ = s.validQ := rfl
@[simp] theorem setH_pktQ : (setH w s).pktQ = s.pktQ := rfl
@[simp] theorem setH_resetSeen : (setH w s).resetSeen = s.resetSeen := rfl
@[simp] theorem setH_pktI : (setH w s).pktI = s.pktI := rfl
@[simp] theorem setH_inValidI : (setH w s).inValidI = s.inValidI := rfl
@[simp] theorem setH_rst : (setH w s).rst = s.rst := rfl
@[simp] theorem setH_insPktI : (setH w s).insPktI = s.insPktI := rfl
@[simp] theorem setH_insSelI : (setH w s).insSelI = s.insSelI := rfl
@[simp] theorem setH_insValI : (setH w s).insValI = s.insValI := rfl
@[simp] theorem setH_insPktO : (setH w s).insPktO = s.insPktO := rfl
@[simp] theorem setH_insIllegalO : (setH w s).insIllegalO = s.insIllegalO := rfl
@[simp] theorem setH_h : (setH w s).h = w := rfl
@[simp] theorem setH_obs : (setH w s).obs = s.obs := rfl
@[simp] theorem setH_program : (setH w s).program = s.program := rfl

end setH

section setObs
variable (o : Obs) (s : State)

@[simp] theorem setObs_params : (setObs o s).params = s.params := rfl
@[simp] theorem setObs_validQ : (setObs o s).validQ = s.validQ := rfl
@[simp] theorem setObs_pktQ : (setObs o s).pktQ = s.pktQ := rfl
@[simp] theorem setObs_resetSeen : (setObs o s).resetSeen = s.resetSeen := rfl
@[simp] theorem setObs_pktI : (setObs o s).pktI = s.pktI := rfl
@[simp] theorem setObs_inValidI : (setObs o s).inValidI = s.inValidI := rfl
@[simp] theorem setObs_rst : (setObs o s).rst = s.rst := rfl
@[simp] theorem setObs_insPktI : (setObs o s).insPktI = s.insPktI := rfl
@[simp] theorem setObs_insSelI : (setObs o s).insSelI = s.insSelI := rfl
@[simp] theorem setObs_insValI : (setObs o s).insValI = s.insValI := rfl
@[simp] theorem setObs_insPktO : (setObs o s).insPktO = s.insPktO := rfl
@[simp] theorem setObs_insIllegalO : (setObs o s).insIllegalO = s.insIllegalO := rfl
@[simp] theorem setObs_h : (setObs o s).h = s.h := rfl
@[simp] theorem setObs_obs : (setObs o s).obs = o := rfl
@[simp] theorem setObs_program : (setObs o s).program = s.program := rfl

end setObs

section setPktI
variable (p : Word) (s : State)

@[simp] theorem setPktI_params : (setPktI p s).params = s.params := rfl
@[simp] theorem setPktI_validQ : (setPktI p s).validQ = s.validQ := rfl
@[simp] theorem setPktI_pktQ : (setPktI p s).pktQ = s.pktQ := rfl
@[simp] theorem setPktI_resetSeen : (setPktI p s).resetSeen = s.resetSeen := rfl
@[simp] theorem setPktI_pktI : (setPktI p s).pktI = p := rfl
@[simp] theorem setPktI_inValidI : (setPktI p s).inValidI = s.inValidI := rfl
@[simp] theorem setPktI_rst : (setPktI p s).rst = s.rst := rfl
@[simp] theorem setPktI_insPktI : (setPktI p s).insPktI = s.insPktI := rfl
@[simp] theorem setPktI_insSelI : (setPktI p s).insSelI = s.insSelI := rfl
@[simp] theorem setPktI_insValI : (setPktI p s).insValI = s.insValI := rfl
@[simp] theorem setPktI_insPktO : (setPktI p s).insPktO = s.insPktO := rfl
@[simp] theorem setPktI_insIllegalO : (setPktI p s).insIllegalO = s.insIllegalO := rfl
@[simp] theorem setPktI_h : (setPktI p s).h = s.h := rfl
@[simp] theorem setPktI_obs : (setPktI p s).obs = s.obs := rfl
@[simp] theorem setPktI_program : (setPktI p s).program = s.program := rfl

end setPktI

section setEdgePins
variable (v : Bool) (r : Bool) (s : State)

@[simp] theorem setEdgePins_params : (setEdgePins v r s).params = s.params := rfl
@[simp] theorem setEdgePins_validQ : (setEdgePins v r s).validQ = s.validQ := rfl
@[simp] theorem setEdgePins_pktQ : (setEdgePins v r s).pktQ = s.pktQ := rfl
@[simp] theorem setEdgePins_resetSeen : (setEdgePins v r s).resetSeen = s.resetSeen := rfl
@[simp] theorem setEdgePins_pktI : (setEdgePins v r s).pktI = s.pktI := rfl
@[simp] theorem setEdgePins_inValidI : (setEdgePins v r s).inValidI = v := rfl
@[simp] theorem setEdgePins_rst : (setEdgePins v r s).rst = r := rfl
@[simp] theorem setEdgePins_insPktI : (setEdgePins v r s).insPktI = s.insPktI := rfl
@[simp] theorem setEdgePins_insSelI : (setEdgePins v r s).insSelI = s.insSelI := rfl
@[simp] theorem setEdgePins_insValI : (setEdgePins v r s).insValI = s.insValI := rfl
@[simp] theorem setEdgePins_insPktO : (setEdgePins v r s).insPktO = s.insPktO := rfl
@[simp] theorem setEdgePins_insIllegalO : (setEdgePins v r s).insIllegalO = s.insIllegalO := rfl
@[simp] theorem setEdgePins_h : (setEdgePins v r s).h = s.h := rfl
@[simp] theorem setEdgePins_obs : (setEdgePins v r s).obs = s.obs := rfl
@[simp] theorem setEdgePins_program : (setEdgePins v r s).program = s.program := rfl

end setEdgePins

section setRegs
variable (v : Option Bool) (q : Option Word) (b : Bool) (s : State)

@[simp] theorem setRegs_params : (setRegs v q b s).params = s.params := rfl
@[simp] theorem setRegs_validQ : (setRegs v q b s).validQ = v := rfl
@[simp] theorem setRegs_pktQ : (setRegs v q b s).pktQ = q := rfl
@[simp] theorem setRegs_resetSeen : (setRegs v q b s).resetSeen = b := rfl
@[simp] theorem setRegs_pktI : (setRegs v q b s).pktI = s.pktI := rfl
@[simp] theorem setRegs_inValidI : (setRegs v q b s).inValidI = s.inValidI := rfl
@[simp] theorem setRegs_rst : (setRegs v q b s).rst = s.rst := rfl
@[simp] theorem setRegs_insPktI : (setRegs v q b s).insPktI = s.insPktI := rfl
@[simp] theorem setRegs_insSelI : (setRegs v q b s).insSelI = s.insSelI := rfl
@[simp] theorem setRegs_insValI : (setRegs v q b s).insValI = s.insValI := rfl
@[simp] theorem setRegs_insPktO : (setRegs v q b s).insPktO = s.insPktO := rfl
@[simp] theorem setRegs_insIllegalO : (setRegs v q b s).insIllegalO = s.insIllegalO := rfl
@[simp] theorem setRegs_h : (setRegs v q b s).h = s.h := rfl
@[simp] theorem setRegs_obs : (setRegs v q b s).obs = s.obs := rfl
@[simp] theorem setRegs_program : (setRegs v q b s).program = s.program := rfl

end setRegs

section setInsert
variable (p : Word) (c : Sel) (v : Val) (w : Word) (b : Bool) (s : State)

@[simp] theorem setInsert_params : (setInsert p c v w b s).params = s.params := rfl
@[simp] theorem setInsert_validQ : (setInsert p c v w b s).validQ = s.validQ := rfl
@[simp] theorem setInsert_pktQ : (setInsert p c v w b s).pktQ = s.pktQ := rfl
@[simp] theorem setInsert_resetSeen : (setInsert p c v w b s).resetSeen = s.resetSeen := rfl
@[simp] theorem setInsert_pktI : (setInsert p c v w b s).pktI = s.pktI := rfl
@[simp] theorem setInsert_inValidI : (setInsert p c v w b s).inValidI = s.inValidI := rfl
@[simp] theorem setInsert_rst : (setInsert p c v w b s).rst = s.rst := rfl
@[simp] theorem setInsert_insPktI : (setInsert p c v w b s).insPktI = p := rfl
@[simp] theorem setInsert_insSelI : (setInsert p c v w b s).insSelI = c := rfl
@[simp] theorem setInsert_insValI : (setInsert p c v w b s).insValI = v := rfl
@[simp] theorem setInsert_insPktO : (setInsert p c v w b s).insPktO = w := rfl
@[simp] theorem setInsert_insIllegalO : (setInsert p c v w b s).insIllegalO = b := rfl
@[simp] theorem setInsert_h : (setInsert p c v w b s).h = s.h := rfl
@[simp] theorem setInsert_obs : (setInsert p c v w b s).obs = s.obs := rfl
@[simp] theorem setInsert_program : (setInsert p c v w b s).program = s.program := rfl

end setInsert

section setProgram
variable (hs : List HostStep) (s : State)

@[simp] theorem setProgram_params : (setProgram hs s).params = s.params := rfl
@[simp] theorem setProgram_validQ : (setProgram hs s).validQ = s.validQ := rfl
@[simp] theorem setProgram_pktQ : (setProgram hs s).pktQ = s.pktQ := rfl
@[simp] theorem setProgram_resetSeen : (setProgram hs s).resetSeen = s.resetSeen := rfl
@[simp] theorem setProgram_pktI : (setProgram hs s).pktI = s.pktI := rfl
@[simp] theorem setProgram_inValidI : (setProgram hs s).inValidI = s.inValidI := rfl
@[simp] theorem setProgram_rst : (setProgram hs s).rst = s.rst := rfl
@[simp] theorem setProgram_insPktI : (setProgram hs s).insPktI = s.insPktI := rfl
@[simp] theorem setProgram_insSelI : (setProgram hs s).insSelI = s.insSelI := rfl
@[simp] theorem setProgram_insValI : (setProgram hs s).insValI = s.insValI := rfl
@[simp] theorem setProgram_insPktO : (setProgram hs s).insPktO = s.insPktO := rfl
@[simp] theorem setProgram_insIllegalO : (setProgram hs s).insIllegalO = s.insIllegalO := rfl
@[simp] theorem setProgram_h : (setProgram hs s).h = s.h := rfl
@[simp] theorem setProgram_obs : (setProgram hs s).obs = s.obs := rfl
@[simp] theorem setProgram_program : (setProgram hs s).program = hs := rfl

end setProgram

end Sys2Proof.Machine
end

