-- ==== Sys2Proof/Laws/Ops.lean ====
section
/-! SUPPORT. What each shared operation can do, said once: the decoder's reads, the observation, the clock edge, the insert
unit, the fetch and the step. -/

namespace Sys2Proof.Machine

/-! ### Reads -/

/-- The decoder gives a word exactly where it shows one. -/
theorem decoderWord_eq_ok_iff {s : State} {p : Word} : decoderWord s = .ok p ↔ s.Shows p := by
  unfold decoderWord State.Shows
  cases s.params.outReg
  · simp
  · rcases s.resetSeen with _ | _ <;> rcases s.validQ with _ | _ | _ <;> rcases s.pktQ with _ | q <;> simp

/-- Where the decoder gives no word, the build is registered and either no reset has been seen, or `valid_q` has no value,
or it is 0, or `pkt_q` has none; the two faults tell the first two from the others. -/
theorem decoderWord_eq_error {s : State} {f : Fault} (h : decoderWord s = .error f) :
    s.params.outReg = true ∧
    ((f = .readBeforeReset ∧ (s.resetSeen = false ∨ s.validQ = none)) ∨
     (f = .dataOutputNotValid ∧ s.resetSeen = true ∧ (s.validQ = some false ∨ s.validQ = some true ∧ s.pktQ = none))) := by
  unfold decoderWord at h
  cases ho : s.params.outReg
  · simp [ho] at h
  · rcases hr : s.resetSeen with _ | _ <;> rcases hv : s.validQ with _ | _ | _ <;> rcases hq : s.pktQ with _ | q <;>
      simp_all

/-- The decoder shows one word at most. -/
theorem State.Shows.unique {s : State} {p q : Word} (hp : s.Shows p) (hq : s.Shows q) : p = q := by
  rw [← decoderWord_eq_ok_iff] at hp hq
  exact Except.ok.inj (hp.symm.trans hq)

/-- A port read where the decoder shows `p`. -/
theorem readPort_of_shows {s : State} {p : Word} (h : s.Shows p) (record : Word → Obs → Obs) :
    readPort record s = .next (setObs (record p s.obs) s) := by
  simp [readPort, decoderWord_eq_ok_iff.mpr h]

/-- A port read that completes had a packet shown, and recorded from it. -/
theorem readPort_next {record : Word → Obs → Obs} {s t : State} (h : readPort record s = .next t) :
    ∃ p, s.Shows p ∧ t = setObs (record p s.obs) s := by
  unfold readPort at h
  split at h
  · exact ⟨_, decoderWord_eq_ok_iff.mp ‹_›, (Host.Outcome.next.inj h).symm⟩
  · cases h

/-- A port read never refuses, and faults only with the fault of `decoderWord`. -/
theorem readPort_fault {record : Word → Obs → Obs} {s : State} {f : Fault} (h : readPort record s = .fault f) :
    decoderWord s = .error f := by
  unfold readPort at h
  split at h
  · cases h
  · cases h; assumption

theorem readPort_not_refused {record : Word → Obs → Obs} {s : State} {r : Refusal} : readPort record s ≠ .refused r := by
  unfold readPort
  split <;> simp

/-! ### Observation -/

theorem observe_of_shows {s : State} {p : Word} (h : s.Shows p) :
    observe s = setObs (obsOf (outValid s) (decoderOutputs s.params.xorTree p)) s := by
  simp [observe, decoderWord_eq_ok_iff.mpr h]

/-- An observation changes `OBS` only: to all outputs of the shown packet, or to no data. -/
theorem observe_cases (s : State) :
    (∃ p, s.Shows p ∧ observe s = setObs (obsOf (outValid s) (decoderOutputs s.params.xorTree p)) s) ∨
    ((∃ f, decoderWord s = .error f) ∧ observe s = setObs { Obs.empty with outValidO := outValid s } s) := by
  unfold observe
  split
  · exact .inl ⟨_, decoderWord_eq_ok_iff.mp ‹_›, rfl⟩
  · exact .inr ⟨⟨_, ‹_›⟩, rfl⟩

/-- Every observation is an update of `OBS` alone. -/
theorem observe_eq_setObs (s : State) : ∃ o, observe s = setObs o s := by
  rcases observe_cases s with ⟨p, -, h⟩ | ⟨-, h⟩ <;> exact ⟨_, h⟩

section observe
variable (s : State)

@[simp] theorem observe_params : (observe s).params = s.params := by unfold observe; split <;> rfl
@[simp] theorem observe_validQ : (observe s).validQ = s.validQ := by unfold observe; split <;> rfl
@[simp] theorem observe_pktQ : (observe s).pktQ = s.pktQ := by unfold observe; split <;> rfl
@[simp] theorem observe_resetSeen : (observe s).resetSeen = s.resetSeen := by unfold observe; split <;> rfl
@[simp] theorem observe_pktI : (observe s).pktI = s.pktI := by unfold observe; split <;> rfl
@[simp] theorem observe_inValidI : (observe s).inValidI = s.inValidI := by unfold observe; split <;> rfl
@[simp] theorem observe_rst : (observe s).rst = s.rst := by unfold observe; split <;> rfl
@[simp] theorem observe_insPktI : (observe s).insPktI = s.insPktI := by unfold observe; split <;> rfl
@[simp] theorem observe_insSelI : (observe s).insSelI = s.insSelI := by unfold observe; split <;> rfl
@[simp] theorem observe_insValI : (observe s).insValI = s.insValI := by unfold observe; split <;> rfl
@[simp] theorem observe_insPktO : (observe s).insPktO = s.insPktO := by unfold observe; split <;> rfl
@[simp] theorem observe_insIllegalO : (observe s).insIllegalO = s.insIllegalO := by unfold observe; split <;> rfl
@[simp] theorem observe_h : (observe s).h = s.h := by unfold observe; split <;> rfl
@[simp] theorem observe_program : (observe s).program = s.program := by unfold observe; split <;> rfl

end observe

/-! ### The clock edge -/

/-- A clock edge sets the pins and the register stage, as 10_state.md R29 says, and nothing else. -/
theorem clockEdge_eq (v r : Bool) (s : State) :
    clockEdge v r s = { s with
      inValidI := v, rst := r, validQ := some (!r && v), pktQ := if !r && v then some s.pktI else s.pktQ,
      resetSeen := s.resetSeen || r } := by
  cases v <;> cases r <;> simp [clockEdge, latch, setEdgePins, setRegs]

/-! ### The insert unit -/

theorem issueInsert_of_present {s : State} (h : s.params.hasInsert = true) (sel : Sel) (v : Val) (out : Word) (b : Bool) :
    issueInsert sel v out b s = .next (setH out (setInsert s.h sel v out b s)) := by
  simp [issueInsert, h]

theorem issueInsert_of_absent {s : State} (h : s.params.hasInsert = false) (sel : Sel) (v : Val) (out : Word) (b : Bool) :
    issueInsert sel v out b s = .refused .insertUnitAbsent := by
  simp [issueInsert, h]

/-- An insert command that completes had its unit, and changed the insert ports and `H` only. -/
theorem issueInsert_next {sel : Sel} {v : Val} {out : Word} {b : Bool} {s t : State}
    (h : issueInsert sel v out b s = .next t) :
    s.params.hasInsert = true ∧ t = setH out (setInsert s.h sel v out b s) := by
  unfold issueInsert at h
  split at h
  · exact ⟨‹_›, (Host.Outcome.next.inj h).symm⟩
  · cases h

/-! ### The step -/

theorem step_of_program_nil {s : State} (h : s.program = []) : step s = .next s := by
  simp [step, fetch, h, hostIdle]

theorem step_of_program_cons {s : State} {hs : HostStep} {rest : List HostStep} (h : s.program = hs :: rest) :
    step s = runHostStep hs (setProgram rest s) := by
  simp [step, fetch, h]

/-- A step is idle, or it runs the first pending host step. -/
theorem step_cases (s : State) :
    (s.program = [] ∧ step s = .next s) ∨
    ∃ hs rest, s.program = hs :: rest ∧ step s = runHostStep hs (setProgram rest s) := by
  cases h : s.program with
  | nil => exact .inl ⟨rfl, step_of_program_nil h⟩
  | cons hs rest => exact .inr ⟨hs, rest, rfl, step_of_program_cons h⟩

/-! ### Runs -/

theorem run_succ_of_step_next (M : Host.Core) (n : Nat) (s t : M.State) (h : M.step s = .next t) :
    M.run (n + 1) s = M.run n t := by
  rw [Host.Core.run, h]

/-- A run of the machine whose first step completes is the run from there. -/
theorem core_run_succ {n : Nat} {s t : State} (h : step s = .next t) :
    Host.Core.run Sys2Proof.core (n + 1) s = Host.Core.run Sys2Proof.core n t :=
  run_succ_of_step_next Sys2Proof.core n s t h

end Sys2Proof.Machine
end

