-- ==== Sys2Proof/Laws/Exec.lean ====
section
/-! SUPPORT. Each row of the opcode table as its shared operation: what exec runs for it, and, for the classes of rows, what
one inversion says. -/

namespace Sys2Proof.Machine

/-! ### One equation for each row -/

section rows
variable (s : State)

theorem exec_pktData (p : Word) : exec (.pktData p) s = .next (applyPacket p s) := rfl
theorem exec_pktError (p : Word) : exec (.pktError p) s = .next (applyPacket p s) := rfl
theorem exec_pktWrite (p : Word) : exec (.pktWrite p) s = .next (applyPacket p s) := rfl
theorem exec_pktRead (p : Word) : exec (.pktRead p) s = .next (applyPacket p s) := rfl
theorem exec_getType : exec .getType s = readPort (fun p o => { o with typeO := some (typeOf p) }) s := rfl
theorem exec_getChip : exec .getChip s = readPort (fun p o => { o with chipO := some (chipOf p) }) s := rfl
theorem exec_getChannel : exec .getChannel s = readPort (fun p o => { o with channelO := some (channelOf p) }) s := rfl
theorem exec_getTimestamp : exec .getTimestamp s = readPort (fun p o => { o with timestampO := some (timestampOf p) }) s := rfl
theorem exec_getFirst : exec .getFirst s = readPort (fun p o => { o with firstO := some (firstOf p) }) s := rfl
theorem exec_getData : exec .getData s = readPort (fun p o => { o with dataO := some (dataOf p) }) s := rfl
theorem exec_getTrigType : exec .getTrigType s = readPort (fun p o => { o with trigTypeO := some (trigTypeOf p) }) s := rfl
theorem exec_getLocalFifo : exec .getLocalFifo s = readPort (fun p o => { o with localFifoO := some (localFifoOf p) }) s := rfl
theorem exec_getSharedFifo : exec .getSharedFifo s = readPort (fun p o => { o with sharedFifoO := some (sharedFifoOf p) }) s := rfl
theorem exec_getDownstream : exec .getDownstream s = readPort (fun p o => { o with downstreamO := some (downstreamOf p) }) s := rfl
theorem exec_getParityBit : exec .getParityBit s = readPort (fun p o => { o with parityBitO := some (parityBitOf p) }) s := rfl
theorem exec_genParity : exec .genParity s = readPort (fun p o => { o with parityGenO := some (parityGen s.params.xorTree p) }) s := rfl
theorem exec_validParity : exec .validParity s = readPort (fun p o => { o with parityOkO := some (parityOk s.params.xorTree p) }) s := rfl
theorem exec_updateParityDec : exec .updateParityDec s = readPort (fun p o => { o with pktFixedO := some (pktFixed s.params.xorTree p) }) s := rfl
theorem exec_typeDecode : exec .typeDecode s = readPort (fun p o =>
    { o with isDataO := some (isType 0#2 p), isErrorO := some (isType 1#2 p), isWriteO := some (isType 2#2 p),
             isReadO := some (isType 3#2 p) }) s := rfl
theorem exec_setType (v : Val) : exec (.setType v) s = issueInsert (fieldSel .type) v (setField .type s.h v) false s := rfl
theorem exec_setChip (v : Val) : exec (.setChip v) s = issueInsert (fieldSel .chip) v (setField .chip s.h v) false s := rfl
theorem exec_setChannel (v : Val) : exec (.setChannel v) s = issueInsert (fieldSel .channel) v (setField .channel s.h v) false s := rfl
theorem exec_setTimestamp (v : Val) : exec (.setTimestamp v) s = issueInsert (fieldSel .timestamp) v (setField .timestamp s.h v) false s := rfl
theorem exec_setFirst (v : Val) : exec (.setFirst v) s = issueInsert (fieldSel .first) v (setField .first s.h v) false s := rfl
theorem exec_setData (v : Val) : exec (.setData v) s = issueInsert (fieldSel .data) v (setField .data s.h v) false s := rfl
theorem exec_setTrigType (v : Val) : exec (.setTrigType v) s = issueInsert (fieldSel .trigType) v (setField .trigType s.h v) false s := rfl
theorem exec_setLocalFifo (v : Val) : exec (.setLocalFifo v) s = issueInsert (fieldSel .localFifo) v (setField .localFifo s.h v) false s := rfl
theorem exec_setSharedFifo (v : Val) : exec (.setSharedFifo v) s = issueInsert (fieldSel .sharedFifo) v (setField .sharedFifo s.h v) false s := rfl
theorem exec_setDownstream (v : Val) : exec (.setDownstream v) s = issueInsert (fieldSel .downstream) v (setField .downstream s.h v) false s := rfl
theorem exec_setParityBit (v : Val) : exec (.setParityBit v) s = issueInsert (fieldSel .parityBit) v (setField .parityBit s.h v) false s := rfl
theorem exec_updateParity (v : Val) : exec (.updateParity v) s = issueInsert 0xB v (updateParityWord s.h) false s := rfl
theorem exec_reservedCF (sel : Sel) (v : Val) : exec (.reservedCF sel v) s = issueInsert sel v s.h true s := rfl

end rows

/-! ### Classes of rows -/

/-- The setter row of a field, for every field. -/
theorem exec_setterOf (f : Field) (v : Val) (s : State) :
    exec (setterOf f v) s = issueInsert (fieldSel f) v (setField f s.h v) false s := by
  cases f <;> rfl

/-- A decoder row is a port read whose record depends on the state by the built tree alone; recording twice is recording
once, what is known of `out_valid_o` stays, and an observation that agrees with the packet's outputs still does. -/
theorem exec_of_readsDecoder {i : Instr} (hi : readsDecoder i = true) :
    ∃ record : XorTree → Word → Obs → Obs, (∀ s, exec i s = readPort (record s.params.xorTree) s) ∧
      ∀ t p o, record t p (record t p o) = record t p o ∧ (record t p o).outValidO = o.outValidO ∧
        (o.Agrees (decoderOutputs t p) → (record t p o).Agrees (decoderOutputs t p)) := by
  cases i <;> simp only [readsDecoder, Bool.false_eq_true] at hi
  case getType => exact ⟨fun _ p o => { o with typeO := some (typeOf p) }, fun _ => rfl, fun _ _ _ => ⟨rfl, rfl, fun h => { h with typeO := fun _ e => (Option.some.inj e).symm }⟩⟩
  case typeDecode => exact ⟨fun _ p o => { o with isDataO := some (isType 0#2 p), isErrorO := some (isType 1#2 p), isWriteO := some (isType 2#2 p), isReadO := some (isType 3#2 p) }, fun _ => rfl, fun _ _ _ => ⟨rfl, rfl, fun h => { h with isDataO := fun _ e => (Option.some.inj e).symm, isErrorO := fun _ e => (Option.some.inj e).symm, isWriteO := fun _ e => (Option.some.inj e).symm, isReadO := fun _ e => (Option.some.inj e).symm }⟩⟩
  case getChip => exact ⟨fun _ p o => { o with chipO := some (chipOf p) }, fun _ => rfl, fun _ _ _ => ⟨rfl, rfl, fun h => { h with chipO := fun _ e => (Option.some.inj e).symm }⟩⟩
  case getChannel => exact ⟨fun _ p o => { o with channelO := some (channelOf p) }, fun _ => rfl, fun _ _ _ => ⟨rfl, rfl, fun h => { h with channelO := fun _ e => (Option.some.inj e).symm }⟩⟩
  case getTimestamp => exact ⟨fun _ p o => { o with timestampO := some (timestampOf p) }, fun _ => rfl, fun _ _ _ => ⟨rfl, rfl, fun h => { h with timestampO := fun _ e => (Option.some.inj e).symm }⟩⟩
  case getFirst => exact ⟨fun _ p o => { o with firstO := some (firstOf p) }, fun _ => rfl, fun _ _ _ => ⟨rfl, rfl, fun h => { h with firstO := fun _ e => (Option.some.inj e).symm }⟩⟩
  case getData => exact ⟨fun _ p o => { o with dataO := some (dataOf p) }, fun _ => rfl, fun _ _ _ => ⟨rfl, rfl, fun h => { h with dataO := fun _ e => (Option.some.inj e).symm }⟩⟩
  case getTrigType => exact ⟨fun _ p o => { o with trigTypeO := some (trigTypeOf p) }, fun _ => rfl, fun _ _ _ => ⟨rfl, rfl, fun h => { h with trigTypeO := fun _ e => (Option.some.inj e).symm }⟩⟩
  case getLocalFifo => exact ⟨fun _ p o => { o with localFifoO := some (localFifoOf p) }, fun _ => rfl, fun _ _ _ => ⟨rfl, rfl, fun h => { h with localFifoO := fun _ e => (Option.some.inj e).symm }⟩⟩
  case getSharedFifo => exact ⟨fun _ p o => { o with sharedFifoO := some (sharedFifoOf p) }, fun _ => rfl, fun _ _ _ => ⟨rfl, rfl, fun h => { h with sharedFifoO := fun _ e => (Option.some.inj e).symm }⟩⟩
  case getDownstream => exact ⟨fun _ p o => { o with downstreamO := some (downstreamOf p) }, fun _ => rfl, fun _ _ _ => ⟨rfl, rfl, fun h => { h with downstreamO := fun _ e => (Option.some.inj e).symm }⟩⟩
  case getParityBit => exact ⟨fun _ p o => { o with parityBitO := some (parityBitOf p) }, fun _ => rfl, fun _ _ _ => ⟨rfl, rfl, fun h => { h with parityBitO := fun _ e => (Option.some.inj e).symm }⟩⟩
  case genParity => exact ⟨fun t p o => { o with parityGenO := some (parityGen t p) }, fun _ => rfl, fun _ _ _ => ⟨rfl, rfl, fun h => { h with parityGenO := fun _ e => (Option.some.inj e).symm }⟩⟩
  case validParity => exact ⟨fun t p o => { o with parityOkO := some (parityOk t p) }, fun _ => rfl, fun _ _ _ => ⟨rfl, rfl, fun h => { h with parityOkO := fun _ e => (Option.some.inj e).symm }⟩⟩
  case updateParityDec => exact ⟨fun t p o => { o with pktFixedO := some (pktFixed t p) }, fun _ => rfl, fun _ _ _ => ⟨rfl, rfl, fun h => { h with pktFixedO := fun _ e => (Option.some.inj e).symm }⟩⟩

/-- A packet row is the application of its packet. -/
theorem exec_of_packet {i : Instr} (h : readsDecoder i = false) (h' : isInsert i = false) (s : State) :
    ∃ p, (i = .pktData p ∨ i = .pktError p ∨ i = .pktWrite p ∨ i = .pktRead p) ∧ exec i s = .next (applyPacket p s) := by
  cases i <;> simp only [readsDecoder, isInsert, Bool.true_eq_false] at h h'
  case pktData p => exact ⟨p, .inl rfl, rfl⟩
  case pktError p => exact ⟨p, .inr (.inl rfl), rfl⟩
  case pktWrite p => exact ⟨p, .inr (.inr (.inl rfl)), rfl⟩
  case pktRead p => exact ⟨p, .inr (.inr (.inr rfl)), rfl⟩

/-- An insert row issues a command, with the select, value, output word and illegal flag of the unit. -/
theorem exec_of_isInsert {i : Instr} (hi : isInsert i = true) (hw : i.wellFormed = true) :
    ∃ sel v, ∀ s : State, exec i s = issueInsert sel v (insertUnit s.h sel v).1 (insertUnit s.h sel v).2 s := by
  cases i <;> simp only [isInsert, Bool.false_eq_true] at hi
  case setType v => exact ⟨0x0, v, fun _ => rfl⟩
  case setChip v => exact ⟨0x1, v, fun _ => rfl⟩
  case setChannel v => exact ⟨0x2, v, fun _ => rfl⟩
  case setTimestamp v => exact ⟨0x3, v, fun _ => rfl⟩
  case setFirst v => exact ⟨0x4, v, fun _ => rfl⟩
  case setData v => exact ⟨0x5, v, fun _ => rfl⟩
  case setTrigType v => exact ⟨0x6, v, fun _ => rfl⟩
  case setLocalFifo v => exact ⟨0x7, v, fun _ => rfl⟩
  case setSharedFifo v => exact ⟨0x8, v, fun _ => rfl⟩
  case setDownstream v => exact ⟨0x9, v, fun _ => rfl⟩
  case setParityBit v => exact ⟨0xA, v, fun _ => rfl⟩
  case updateParity v => exact ⟨0xB, v, fun _ => rfl⟩
  case reservedCF sel v =>
    refine ⟨sel, v, fun s => ?_⟩
    have : insertUnit s.h sel v = (s.h, true) := by
      have h : sel = 0xC ∨ sel = 0xD ∨ sel = 0xE ∨ sel = 0xF := by
        simp only [Instr.wellFormed] at hw
        revert sel
        decide
      rcases h with rfl | rfl | rfl | rfl <;> rfl
    rw [this, exec_reservedCF]

/-- A command word runs the insert unit on its select and value. -/
theorem exec_command (c : Cmd) (s : State) :
    exec (decode (.command c)) s =
      issueInsert (cmdSel c) (cmdVal c) (insertUnit s.h (cmdSel c) (cmdVal c)).1
        (insertUnit s.h (cmdSel c) (cmdVal c)).2 s := by
  have cases16 : ∀ x : Sel, x = 0x0 ∨ x = 0x1 ∨ x = 0x2 ∨ x = 0x3 ∨ x = 0x4 ∨ x = 0x5 ∨ x = 0x6 ∨ x = 0x7 ∨ x = 0x8 ∨
      x = 0x9 ∨ x = 0xA ∨ x = 0xB ∨ x = 0xC ∨ x = 0xD ∨ x = 0xE ∨ x = 0xF := by decide
  rcases cases16 (cmdSel c) with h | h | h | h | h | h | h | h | h | h | h | h | h | h | h | h <;>
    (rw [decode, decodeCommand, h]; rfl)

end Sys2Proof.Machine
end

