-- ==== Sys2Proof/Laws/PerInstr.lean ====
section
/-! SUPPORT. A statement made once per instruction: its encoding matches its row of the opcode table. -/

namespace Sys2Proof.Laws.EncodingMatchesTable

open Sys2Proof Sys2Proof.Machine

/-- The word of a well-formed instruction, where its row has one, agrees with the row's `match` on the row's `mask`
(spec/opcode_table.json; 30_encoding.md R63, R67, R70, R72). -/
def Statement (i : Instr) : Prop :=
  i.wellFormed = true → ∀ m v n, i.tableRow = some (m, v) → (encode i).bits? = some n → n &&& m = v

/-- A packet row's mask takes the type code. -/
theorem packet_and_mask (p : Word) : p.toNat &&& 3 = (p.extractLsb' 0 2).toNat := by
  rw [Nat.and_two_pow_sub_one_eq_mod _ 2]
  simp

/-- A command's mask takes the select. -/
theorem command_and_mask (v : Val) (sel : Sel) : (mkCmd v sel).toNat &&& 0xF = sel.toNat := by
  rw [Nat.and_two_pow_sub_one_eq_mod _ 4, mkCmd, toNat_append_eq, Nat.mul_add_mod_self_right,
    Nat.mod_eq_of_lt sel.isLt]

/-- A packet row's statement from its type code. -/
theorem packet_row {i : Instr} {p : Word} {c : BitVec 2} (hw : i.wellFormed = (p.extractLsb' 0 2 == c))
    (he : encode i = .packet p) (ht : i.tableRow = some (3, c.toNat)) : Statement i := by
  intro h m v n hr hn
  rw [hw, beq_iff_eq] at h
  rw [ht] at hr
  rw [he] at hn
  cases hr
  cases hn
  rw [packet_and_mask, h]

/-- A command row's statement from its select. -/
theorem command_row {i : Instr} {x : Val} {sel : Sel} (he : encode i = .command (mkCmd x sel))
    (ht : i.tableRow = some (0xF, sel.toNat)) : Statement i := by
  intro _ m v n hr hn
  rw [ht] at hr
  rw [he] at hn
  cases hr
  cases hn
  exact command_and_mask x sel

/-- A row without a word. -/
theorem port_row {i : Instr} (ht : i.tableRow = none) : Statement i := by
  intro _ m v n hr _
  rw [ht] at hr
  cases hr

theorem pktData (p : Word) : Statement (.pktData p) := packet_row (c := 0#2) rfl rfl rfl
theorem pktError (p : Word) : Statement (.pktError p) := packet_row (c := 1#2) rfl rfl rfl
theorem pktWrite (p : Word) : Statement (.pktWrite p) := packet_row (c := 2#2) rfl rfl rfl
theorem pktRead (p : Word) : Statement (.pktRead p) := packet_row (c := 3#2) rfl rfl rfl
theorem getType : Statement .getType := port_row rfl
theorem typeDecode : Statement .typeDecode := port_row rfl
theorem getChip : Statement .getChip := port_row rfl
theorem getChannel : Statement .getChannel := port_row rfl
theorem getTimestamp : Statement .getTimestamp := port_row rfl
theorem getFirst : Statement .getFirst := port_row rfl
theorem getData : Statement .getData := port_row rfl
theorem getTrigType : Statement .getTrigType := port_row rfl
theorem getLocalFifo : Statement .getLocalFifo := port_row rfl
theorem getSharedFifo : Statement .getSharedFifo := port_row rfl
theorem getDownstream : Statement .getDownstream := port_row rfl
theorem getParityBit : Statement .getParityBit := port_row rfl
theorem genParity : Statement .genParity := port_row rfl
theorem validParity : Statement .validParity := port_row rfl
theorem updateParityDec : Statement .updateParityDec := port_row rfl
theorem setType (v : Val) : Statement (.setType v) := command_row (sel := 0x0) rfl rfl
theorem setChip (v : Val) : Statement (.setChip v) := command_row (sel := 0x1) rfl rfl
theorem setChannel (v : Val) : Statement (.setChannel v) := command_row (sel := 0x2) rfl rfl
theorem setTimestamp (v : Val) : Statement (.setTimestamp v) := command_row (sel := 0x3) rfl rfl
theorem setFirst (v : Val) : Statement (.setFirst v) := command_row (sel := 0x4) rfl rfl
theorem setData (v : Val) : Statement (.setData v) := command_row (sel := 0x5) rfl rfl
theorem setTrigType (v : Val) : Statement (.setTrigType v) := command_row (sel := 0x6) rfl rfl
theorem setLocalFifo (v : Val) : Statement (.setLocalFifo v) := command_row (sel := 0x7) rfl rfl
theorem setSharedFifo (v : Val) : Statement (.setSharedFifo v) := command_row (sel := 0x8) rfl rfl
theorem setDownstream (v : Val) : Statement (.setDownstream v) := command_row (sel := 0x9) rfl rfl
theorem setParityBit (v : Val) : Statement (.setParityBit v) := command_row (sel := 0xA) rfl rfl
theorem updateParity (v : Val) : Statement (.updateParity v) := command_row (sel := 0xB) rfl rfl
theorem reservedCF (sel : Sel) (v : Val) : Statement (.reservedCF sel v) := by
  intro h m x n hr hn
  cases hr
  cases hn
  have e : (mkCmd v sel).toNat &&& 0xC = ((mkCmd v sel).toNat &&& 0xF) &&& 0xC := by rw [Nat.and_assoc]; rfl
  rw [e, command_and_mask]
  have : ∀ c : Sel, (c.extractLsb' 2 2 == 3#2) = true → c.toNat &&& 0xC = 0xC := by decide
  exact this sel h

end Sys2Proof.Laws.EncodingMatchesTable
end

