-- ==== Sys2Proof/Tests/Slice0.lean ====
section
/-! SUPPORT. The model's own tests, from the vectors of 95_test_vectors.md, and a witness for the hypotheses of every
statement that has some. -/

open Sys2Proof Sys2Proof.Machine

namespace Sys2Proof.Tests

/-! ### Small states -/

/-- The running example packet E (95_test_vectors.md). -/
def packetE : Word := 0x76C39234567854A8

/-- The registered build, with the other defaults. -/
def regBuild : Params := { defaultParams with outReg := true }

/-- A build without the insert unit. -/
def bareBuild : Params := { defaultParams with hasInsert := false }

/-- The default build with `pkt_i = p`. -/
def showing (p : Word) : State := { State.reset with pktI := p }

/-- The default build with `H = w`. -/
def holding (w : Word) : State := { State.reset with h := w }

/-- A build after reset, with E in `H` and the host's steps `hs`. -/
def running (b : Params) (hs : List HostStep) : State := { State.resetOf b with h := packetE, program := hs }

/-- The registered build after the capture of `p`. -/
def captured (p : Word) : State := { State.resetOf regBuild with validQ := some true, pktQ := some p }

/-- The observation of an outcome, where it is a next state. -/
def obsAfter : Host.Outcome State Fault Refusal → Option Obs
  | .next t => some t.obs
  | _ => none

/-- `(H, ins_illegal_o)` of an outcome, where it is a next state. -/
def insAfter : Host.Outcome State Fault Refusal → Option (Word × Bool)
  | .next t => some (t.h, t.insIllegalO)
  | _ => none

/-- `(valid_q, pkt_q)` of an outcome, where it is a next state. -/
def regsAfter : Host.Outcome State Fault Refusal → Option (Option Bool × Option Word)
  | .next t => some (t.validQ, t.pktQ)
  | _ => none

/-! ### Well-formedness: the check refuses an ill-formed term of each kind (30_encoding.md R63, R72) -/

theorem test_illFormed_pktData : (Instr.pktData 0x3).wellFormed = false := by decide
theorem test_illFormed_pktError : (Instr.pktError 0x0).wellFormed = false := by decide
theorem test_illFormed_pktWrite : (Instr.pktWrite 0x3).wellFormed = false := by decide
theorem test_illFormed_pktRead : (Instr.pktRead 0x2).wellFormed = false := by decide
theorem test_illFormed_reserved_B : (Instr.reservedCF 0xB 0).wellFormed = false := by decide
theorem test_illFormed_reserved_7 : (Instr.reservedCF 0x7 0).wellFormed = false := by decide

/-! ### Decoding: words written out from 30_encoding.md R61, R63, R70, R71 (the CMD columns of 95_test_vectors.md) -/

theorem test_decode_pktData : decode (.packet 0x76C39234567854A8) = .pktData 0x76C39234567854A8 := by decide
theorem test_decode_pktError : decode (.packet 0x0000000000000001) = .pktError 0x0000000000000001 := by decide
theorem test_decode_pktWrite : decode (.packet 0x000000000000140A) = .pktWrite 0x000000000000140A := by decide
theorem test_decode_pktRead : decode (.packet 0xFFFFFFFFFFFFFFFF) = .pktRead 0xFFFFFFFFFFFFFFFF := by decide
/-- The diagram of R62, most significant field first, for E. -/
theorem test_decode_packet_bit_by_bit : decode (.packet (0#1 ++ 1#1 ++ 3#2 ++ 1#2 ++ 2#2 ++ 0xC3#8 ++ 1#1 ++ 0x12345678#31 ++ 0x15#6 ++ 0x2A#8 ++ 0#2)) =
    .pktData 0x76C39234567854A8 := by decide
theorem test_decode_setType : decode (.command 0x00000030) = .setType 0x3 := by decide
theorem test_decode_setChip : decode (.command 0xFF1) = .setChip 0xFF := by decide
theorem test_decode_setChannel : decode (.command 0x3F2) = .setChannel 0x3F := by decide
theorem test_decode_setTimestamp : decode (.command 0x7FFFFFFF3) = .setTimestamp 0x7FFFFFFF := by decide
theorem test_decode_setFirst : decode (.command 0x14) = .setFirst 0x1 := by decide
theorem test_decode_setData : decode (.command 0xC35) = .setData 0xC3 := by decide
theorem test_decode_setTrigType : decode (.command 0x16) = .setTrigType 0x1 := by decide
theorem test_decode_setLocalFifo : decode (.command 0x27) = .setLocalFifo 0x2 := by decide
theorem test_decode_setSharedFifo : decode (.command 0x38) = .setSharedFifo 0x3 := by decide
theorem test_decode_setDownstream : decode (.command 0x19) = .setDownstream 0x1 := by decide
theorem test_decode_setParityBit : decode (.command 0x1A) = .setParityBit 0x1 := by decide
theorem test_decode_updateParity : decode (.command 0xB) = .updateParity 0x0 := by decide
theorem test_decode_reserved_C : decode (.command 0xC) = .reservedCF 0xC 0x0 := by decide
theorem test_decode_reserved_E : decode (.command 0x5E) = .reservedCF 0xE 0x5 := by decide
theorem test_decode_reserved_F : decode (.command 0x7FFFFFFFF) = .reservedCF 0xF 0x7FFFFFFF := by decide
/-- `INS SET_CHIP, 0x2A` of P1 in binary: 31 value bits, then the select 0001. -/
theorem test_decode_command_bit_by_bit : decode (.command 0b00000000000000000000000001010100001) = .setChip 0x2A := by decide
/-- One decoder row per port (10_state.md R26). -/
theorem test_decode_ports : 
    [.typeO, .typeOneHot, .chipO, .channelO, .timestampO, .firstO, .dataO, .trigTypeO, .localFifoO, .sharedFifoO, .downstreamO, .parityBitO, .parityGenO, .parityOkO, .pktFixedO].map decodePort =
    [.getType, .typeDecode, .getChip, .getChannel, .getTimestamp, .getFirst, .getData, .getTrigType, .getLocalFifo, .getSharedFifo, .getDownstream, .getParityBit, .genParity, .validParity, .updateParityDec] := by decide
/-- The bytes B[0..7] of E. -/
theorem test_bytes_of_E : decodePacketBytes [0xA8, 0x54, 0x78, 0x56, 0x34, 0x92, 0xC3, 0x76] = .ok (.pktData 0x76C39234567854A8) := rfl
theorem test_packet_of_seven_bytes : decodePacketBytes [1, 2, 3, 4, 5, 6, 7] = .error (.packetLength 7) := rfl
theorem test_command_of_four_bytes : decodeCommandBytes [1, 2, 3, 4] = .error (.commandLength 4) := rfl
theorem test_command_above_bit_34 : decodeCommandBytes [1, 0, 0, 0, 8] = .error .commandAbove34 := rfl
theorem test_command_of_five_bytes : decodeCommandBytes [0xF3, 0xFF, 0xFF, 0xFF, 0x07] = .ok (.setTimestamp 0x7FFFFFFF) := rfl
theorem test_tableWord_command : decodeTableWord 40 0x1FF1 = some (.setChip 0x1FF) := by decide
theorem test_tableWord_packet : decodeTableWord 64 0x0000000000000002 = some (.pktWrite 0x2) := by decide
theorem test_tableWord_too_large : decodeTableWord 40 0x800000000 = none ∧ decodeTableWord 64 0x10000000000000000 = none := by decide

/-! ### Packet rows (95_test_vectors.md L2.1, L2.2; the registered build, L2.5) -/

/-- DV3, TV1. -/
theorem test_pktData : (obsAfter (exec (.pktData 0x76C39234567854A8) State.reset)).map (fun o => (o.typeO, o.isDataO, o.timestampO, o.outValidO)) = some (some 0, some true, some 0x12345678, none) := by decide
/-- TV2, PV18. -/
theorem test_pktError : (obsAfter (exec (.pktError 0x0000000000000001) State.reset)).map (fun o => (o.typeO, o.isErrorO, o.isDataO, o.parityOkO)) = some (some 1, some true, some false, some true) := by decide
/-- P2. -/
theorem test_pktWrite : (obsAfter (exec (.pktWrite 0x000000000000140A) State.reset)).map (fun o => (o.isWriteO, o.chipO, o.channelO, o.pktFixedO)) = some (some true, some 0x02, some 0x05, some 0x800000000000140A) := by decide
/-- DV2, TV4, PV4. -/
theorem test_pktRead : (obsAfter (exec (.pktRead 0xFFFFFFFFFFFFFFFF) State.reset)).map (fun o => (o.isReadO, o.chipO, o.sharedFifoO, o.parityOkO)) = some (some true, some 0xFF, some 3, some false) := by decide
/-- RV2. -/
theorem test_pktData_registered : regsAfter (exec (.pktData 0x76C39234567854A8) (State.resetOf regBuild)) =
    some (some true, some 0x76C39234567854A8) := by decide

/-! ### Decoder rows (95_test_vectors.md DV, TV, PV) -/

/-- DV3. -/
theorem test_getType : (obsAfter (exec .getType (showing 0x76C39234567854A8))).map (fun o => o.typeO) = some (some 0) := by decide
/-- DV4. -/
theorem test_getType_max : (obsAfter (exec .getType (showing 0x0000000000000003))).map (fun o => o.typeO) = some (some 3) := by decide
/-- TV3. -/
theorem test_typeDecode : (obsAfter (exec .typeDecode (showing 0x000000000000140A))).map (fun o => (o.isDataO, o.isErrorO, o.isWriteO, o.isReadO)) = some (some false, some false, some true, some false) := by decide
/-- TV4. -/
theorem test_typeDecode_read : (obsAfter (exec .typeDecode (showing 0xFFFFFFFFFFFFFFFF))).map (fun o => (o.isDataO, o.isErrorO, o.isWriteO, o.isReadO)) = some (some false, some false, some false, some true) := by decide
/-- DV3. -/
theorem test_getChip : (obsAfter (exec .getChip (showing 0x76C39234567854A8))).map (fun o => o.chipO) = some (some 0x2A) := by decide
/-- DV16: the bits of byte 1. -/
theorem test_getChip_split : (obsAfter (exec .getChip (showing 0x0000000000000300))).map (fun o => o.chipO) = some (some 0xC0) := by decide
/-- DV3. -/
theorem test_getChannel : (obsAfter (exec .getChannel (showing 0x76C39234567854A8))).map (fun o => o.channelO) = some (some 0x15) := by decide
/-- DV6. -/
theorem test_getChannel_max : (obsAfter (exec .getChannel (showing 0x000000000000FC00))).map (fun o => o.channelO) = some (some 0x3F) := by decide
/-- DV3. -/
theorem test_getTimestamp : (obsAfter (exec .getTimestamp (showing 0x76C39234567854A8))).map (fun o => o.timestampO) = some (some 0x12345678) := by decide
/-- DV21: bit 47 is not of it. -/
theorem test_getTimestamp_max : (obsAfter (exec .getTimestamp (showing 0x0000FFFFFFFF0000))).map (fun o => o.timestampO) = some (some 0x7FFFFFFF) := by decide
/-- DV3. -/
theorem test_getFirst : (obsAfter (exec .getFirst (showing 0x76C39234567854A8))).map (fun o => o.firstO) = some (some 1) := by decide
/-- DV7. -/
theorem test_getFirst_clear : (obsAfter (exec .getFirst (showing 0x00007FFFFFFF0000))).map (fun o => o.firstO) = some (some 0) := by decide
/-- DV3. -/
theorem test_getData : (obsAfter (exec .getData (showing 0x76C39234567854A8))).map (fun o => o.dataO) = some (some 0xC3) := by decide
/-- DV9. -/
theorem test_getData_max : (obsAfter (exec .getData (showing 0x00FF000000000000))).map (fun o => o.dataO) = some (some 0xFF) := by decide
/-- DV3. -/
theorem test_getTrigType : (obsAfter (exec .getTrigType (showing 0x76C39234567854A8))).map (fun o => o.trigTypeO) = some (some 2) := by decide
/-- DV10. -/
theorem test_getTrigType_max : (obsAfter (exec .getTrigType (showing 0x0300000000000000))).map (fun o => o.trigTypeO) = some (some 3) := by decide
/-- DV3. -/
theorem test_getLocalFifo : (obsAfter (exec .getLocalFifo (showing 0x76C39234567854A8))).map (fun o => o.localFifoO) = some (some 1) := by decide
/-- DV12. -/
theorem test_getLocalFifo_other : (obsAfter (exec .getLocalFifo (showing 0x3000000000000000))).map (fun o => o.localFifoO) = some (some 0) := by decide
/-- DV3. -/
theorem test_getSharedFifo : (obsAfter (exec .getSharedFifo (showing 0x76C39234567854A8))).map (fun o => o.sharedFifoO) = some (some 3) := by decide
/-- DV11. -/
theorem test_getSharedFifo_other : (obsAfter (exec .getSharedFifo (showing 0x0C00000000000000))).map (fun o => o.sharedFifoO) = some (some 0) := by decide
/-- DV3. -/
theorem test_getDownstream : (obsAfter (exec .getDownstream (showing 0x76C39234567854A8))).map (fun o => o.downstreamO) = some (some 1) := by decide
/-- DV14. -/
theorem test_getDownstream_clear : (obsAfter (exec .getDownstream (showing 0x8000000000000000))).map (fun o => o.downstreamO) = some (some 0) := by decide
/-- DV3. -/
theorem test_getParityBit : (obsAfter (exec .getParityBit (showing 0x76C39234567854A8))).map (fun o => o.parityBitO) = some (some 0) := by decide
/-- DV14. -/
theorem test_getParityBit_set : (obsAfter (exec .getParityBit (showing 0x8000000000000000))).map (fun o => o.parityBitO) = some (some 1) := by decide
/-- PV5. -/
theorem test_genParity : (obsAfter (exec .genParity (showing 0x76C39234567854A8))).map (fun o => o.parityGenO) = some (some 0) := by decide
/-- PV1. -/
theorem test_genParity_zero : (obsAfter (exec .genParity (showing 0x0000000000000000))).map (fun o => o.parityGenO) = some (some 1) := by decide
/-- PV1: the all-zero packet is invalid (90_conflicts.md C1). -/
theorem test_validParity : (obsAfter (exec .validParity (showing 0x0000000000000000))).map (fun o => o.parityOkO) = some (some false) := by decide
/-- PV15: bit 63 flipped. -/
theorem test_validParity_bit63 : (obsAfter (exec .validParity (showing 0xF6C39234567854A8))).map (fun o => o.parityOkO) = some (some false) := by decide
/-- PV10. -/
theorem test_updateParityDec : (obsAfter (exec .updateParityDec (showing 0x76C39234567954A8))).map (fun o => o.pktFixedO) = some (some 0xF6C39234567954A8) := by decide
/-- PV5. -/
theorem test_updateParityDec_valid : (obsAfter (exec .updateParityDec (showing 0x76C39234567854A8))).map (fun o => o.pktFixedO) = some (some 0x76C39234567854A8) := by decide

/-! ### Insert rows (95_test_vectors.md IV, P1, P3, P5) -/

/-- IV1. -/
theorem test_setType : insAfter (exec (.setType 0x3) (holding 0x76C39234567854A8)) = some (0x76C39234567854AB, false) := by decide
/-- IV23. -/
theorem test_setType_clear : insAfter (exec (.setType 0x0) (holding 0xFFFFFFFFFFFFFFFF)) = some (0xFFFFFFFFFFFFFFFC, false) := by decide
/-- IV2. -/
theorem test_setChip : insAfter (exec (.setChip 0xFF) (holding 0x76C39234567854A8)) = some (0x76C39234567857FC, false) := by decide
/-- P5: the value is truncated. -/
theorem test_setChip_wide : insAfter (exec (.setChip 0x1FF) (holding 0x0)) = some (0x00000000000003FC, false) := by decide
/-- IV3. -/
theorem test_setChannel : insAfter (exec (.setChannel 0x0) (holding 0x76C39234567854A8)) = some (0x76C39234567800A8, false) := by decide
/-- IV14. -/
theorem test_setChannel_max : insAfter (exec (.setChannel 0x3F) (holding 0x0)) = some (0x000000000000FC00, false) := by decide
/-- IV4. -/
theorem test_setTimestamp : insAfter (exec (.setTimestamp 0x7FFFFFFF) (holding 0x76C39234567854A8)) = some (0x76C3FFFFFFFF54A8, false) := by decide
/-- IV26. -/
theorem test_setTimestamp_clear : insAfter (exec (.setTimestamp 0x0) (holding 0xFFFFFFFFFFFFFFFF)) = some (0xFFFF80000000FFFF, false) := by decide
/-- IV5. -/
theorem test_setFirst : insAfter (exec (.setFirst 0x0) (holding 0x76C39234567854A8)) = some (0x76C31234567854A8, false) := by decide
/-- IV16. -/
theorem test_setFirst_set : insAfter (exec (.setFirst 0x1) (holding 0x0)) = some (0x0000800000000000, false) := by decide
/-- P3. -/
theorem test_setData : insAfter (exec (.setData 0x7F) (holding 0x76C39234567854A8)) = some (0x767F9234567854A8, false) := by decide
/-- IV6. -/
theorem test_setData_clear : insAfter (exec (.setData 0x0) (holding 0x76C39234567854A8)) = some (0x76009234567854A8, false) := by decide
/-- IV7. -/
theorem test_setTrigType : insAfter (exec (.setTrigType 0x1) (holding 0x76C39234567854A8)) = some (0x75C39234567854A8, false) := by decide
/-- IV18. -/
theorem test_setTrigType_max : insAfter (exec (.setTrigType 0x3) (holding 0x0)) = some (0x0300000000000000, false) := by decide
/-- IV8: the contract, not the AND-merge (90_conflicts.md C3). -/
theorem test_setLocalFifo : insAfter (exec (.setLocalFifo 0x2) (holding 0x76C39234567854A8)) = some (0x7AC39234567854A8, false) := by decide
/-- IV19. -/
theorem test_setLocalFifo_max : insAfter (exec (.setLocalFifo 0x3) (holding 0x0)) = some (0x0C00000000000000, false) := by decide
/-- IV9. -/
theorem test_setSharedFifo : insAfter (exec (.setSharedFifo 0x0) (holding 0x76C39234567854A8)) = some (0x46C39234567854A8, false) := by decide
/-- IV20. -/
theorem test_setSharedFifo_max : insAfter (exec (.setSharedFifo 0x3) (holding 0x0)) = some (0x3000000000000000, false) := by decide
/-- IV10. -/
theorem test_setDownstream : insAfter (exec (.setDownstream 0x0) (holding 0x76C39234567854A8)) = some (0x36C39234567854A8, false) := by decide
/-- IV21. -/
theorem test_setDownstream_set : insAfter (exec (.setDownstream 0x1) (holding 0x0)) = some (0x4000000000000000, false) := by decide
/-- IV11. -/
theorem test_setParityBit : insAfter (exec (.setParityBit 0x1) (holding 0x76C39234567854A8)) = some (0xF6C39234567854A8, false) := by decide
/-- R163: an invalid packet may be made. -/
theorem test_setParityBit_clear : insAfter (exec (.setParityBit 0x0) (holding 0x8000000000000000)) = some (0x0000000000000000, false) := by decide
/-- P3. -/
theorem test_updateParity : insAfter (exec (.updateParity 0x0) (holding 0x767F9234567854A8)) = some (0xF67F9234567854A8, false) := by decide
/-- P1: a valid packet stays; the value is ignored (R72). -/
theorem test_updateParity_valid : insAfter (exec (.updateParity 0x7FFFFFFF) (holding 0x76C39234567854A8)) = some (0x76C39234567854A8, false) := by decide
/-- P5. -/
theorem test_reservedCF : insAfter (exec (.reservedCF 0xE 0x5) (holding 0x00000000000003FC)) = some (0x00000000000003FC, true) := by decide
/-- R164. -/
theorem test_reservedCF_C : insAfter (exec (.reservedCF 0xC 0x7FFFFFFF) (holding 0x76C39234567854A8)) = some (0x76C39234567854A8, true) := by decide

/-! ### Host steps (95_test_vectors.md RV, P2, P4) -/

/-- P2. -/
theorem test_ldb : insAfter (step (running defaultParams [.ldb 0x0A 0x14 0 0 0 0 0 0])) = some (0x000000000000140A, false) := by decide
/-- P2. -/
theorem test_dec : (obsAfter (step { holding 0x000000000000140A with program := [.dec] })).map (fun o => (o.isWriteO, o.chipO, o.parityGenO)) = some (some true, some 0x02, some 1) := by decide
/-- RV1. -/
theorem test_clk_reset : regsAfter (step { State.powerUp regBuild with program := [.clk false true] }) = some (some false, none) := by decide
/-- RV3. -/
theorem test_clk_bubble : regsAfter (step { captured packetE with program := [.clk false false] }) = some (some false, some packetE) := by decide
/-- RV4. -/
theorem test_clk_reset_priority : regsAfter (step { captured packetE with program := [.clk true true] }) = some (some false, some packetE) := by decide
/-- P1, the first step after `CLR`. -/
theorem test_withFetchWord : insAfter (step (State.reset.withFetchWord 40 0x2A1)) = some (0x00000000000000A8, false) := by decide

/-! ### Witnesses: a concrete state and operands meeting the hypotheses of each statement, clause by clause -/

/-- The combinational build and the registered build, each showing a packet. -/
theorem witness_shows : (showing packetE).Shows packetE ∧ (captured packetE).Shows packetE := by decide

/-- The default tree is legal. -/
theorem witness_treeLegal : treeLegal (showing packetE).params.xorTree = true ∧ treeLegal regBuild.xorTree = true := by
  decide

theorem witness_DecodeOfEncodeIsTheInstruction :
    (Instr.pktRead 0xFFFFFFFFFFFFFFFF).wellFormed = true ∧ (Instr.reservedCF 0xF 0x7FFFFFFF).wellFormed = true ∧
    (Instr.reservedCF 0xC 0).wellFormed = true ∧ (Instr.setChip 0x1FF).wellFormed = true := by decide

theorem witness_PacketKindIsTheTypeCode :
    (0x0 : Word).extractLsb' 0 2 = 0#2 ∧ (0x1 : Word).extractLsb' 0 2 = 1#2 ∧ (0xFFFFFFFFFFFFFFFE : Word).extractLsb' 0 2 = 2#2 ∧
    (0xFFFFFFFFFFFFFFFF : Word).extractLsb' 0 2 = 3#2 := by decide

/-- Of CommandWordDrivesTheInsertPorts and of every statement about the insert unit alone. -/
theorem witness_hasInsert : (holding packetE).params.hasInsert = true ∧ (running regBuild []).params.hasInsert = true := by
  decide

theorem witness_CommandRowsCoverAndDoNotOverlap :
    isInsert (.setChip 0) = true ∧ isInsert (.setChip 1) = true ∧ (Instr.setChip 0).tableRow = some (0xF, 0x1) ∧
    (Instr.setChip 1).tableRow = some (0xF, 0x1) ∧ 0x1FF1 &&& 0xF = 0x1 := by decide

theorem witness_StepRunsTheDecodedInstruction :
    (running defaultParams [.code (.command 0x2A1)]).program = .code (.command 0x2A1) :: [] ∧
    decodeTableWord 40 0x7FFFFFFFF = some (.reservedCF 0xF 0x7FFFFFFF) ∧
    decodeTableWord 64 0xFFFFFFFFFFFFFFFF = some (.pktRead 0xFFFFFFFFFFFFFFFF) := by decide

theorem witness_NoPendingStepChangesNothing : State.reset.program = [] := rfl

theorem witness_LoadWordStep : (running defaultParams [.ldw packetE, .dec]).program = .ldw packetE :: [.dec] := rfl

theorem witness_LoadBytesStep :
    (running regBuild [.ldb 0xA8 0x54 0x78 0x56 0x34 0x92 0xC3 0x76]).program =
      .ldb 0xA8 0x54 0x78 0x56 0x34 0x92 0xC3 0x76 :: [] := rfl

theorem witness_DecStepObservesAllOutputs :
    (running defaultParams [.dec]).program = .dec :: [] ∧ (running defaultParams [.dec]).params.outReg = false := by decide

theorem witness_ClockEdgeUpdatesTheRegisterStage :
    (running regBuild [.clk true false]).program = .clk true false :: [] ∧
    (running regBuild [.clk true false]).params.outReg = true := by decide

/-- Each clause: after a reset, with and without `rst` and `in_valid_i`, and before the first reset. -/
theorem witness_ClockStepObservation :
    (∀ v r : Bool, (running regBuild [.clk v r]).program = .clk v r :: [] ∧
      (running regBuild [.clk v r]).params.outReg = true ∧ (running regBuild [.clk v r]).resetSeen = true) ∧
    (State.powerUp regBuild).resetSeen = false ∧ (State.powerUp regBuild).params.outReg = true := by decide

/-- Each clause: `valid_q` 0 and 1 after a reset, before the first reset, and the build without the port. -/
theorem witness_OutValidRead :
    (let s := running regBuild [.readOutValid];
      s.program = .readOutValid :: [] ∧ s.params.outReg = true ∧ s.resetSeen = true ∧ s.validQ = some false) ∧
    (let s : State := { captured 0 with program := [.readOutValid] };
      s.program = .readOutValid :: [] ∧ s.params.outReg = true ∧ s.resetSeen = true ∧ s.validQ = some true) ∧
    (let s : State := { State.powerUp regBuild with program := [.readOutValid] };
      s.program = .readOutValid :: [] ∧ s.params.outReg = true ∧ s.resetSeen = false) ∧
    (let s := running defaultParams [.readOutValid];
      s.program = .readOutValid :: [] ∧ s.params.outReg = false) := by decide

theorem witness_StepsOfTheOtherBuildAreRefused :
    (running regBuild [.dec]).program = .dec :: [] ∧ (running regBuild [.dec]).params.outReg = true ∧
    (running defaultParams [.clk true true]).program = .clk true true :: [] ∧
    (running defaultParams [.clk true true]).params.outReg = false := by decide

theorem witness_AbsentInsertUnitRefusesCommands :
    (State.resetOf bareBuild).params.hasInsert = false ∧ (State.resetOf bareBuild).Shows 0 ∧
    isInsert (.reservedCF 0xC 0) = true ∧ isInsert (.setType 0) = true := by decide

theorem witness_DecoderReadsFaultWithoutAValidPacket :
    readsDecoder .getType = true ∧ readsDecoder .updateParityDec = true ∧
    ((State.powerUp regBuild).params.outReg = true ∧ (State.powerUp regBuild).resetSeen = false) ∧
    ((State.resetOf regBuild).resetSeen = true ∧ (State.resetOf regBuild).validQ = some false) ∧
    (let s : State := { captured 0 with pktQ := none };
      s.params.outReg = true ∧ s.resetSeen = true ∧ s.validQ = some true ∧ s.pktQ = none) := by decide

/-- Of ReadingHasNoSideEffect and RegisteredReadsIgnoreTheInputPins. -/
theorem witness_completed_read :
    ∃ t, readsDecoder .getChip = true ∧ (captured packetE).params.outReg = true ∧
      exec .getChip (captured packetE) = .next t ∧ t.obs.chipO = some 0x2A :=
  ⟨_, rfl, rfl, rfl, rfl⟩

/-- Of the second clause of RegisteredReadsIgnoreTheInputPins: other pins, another `H`, another observation, the same
registers. -/
theorem witness_same_registers :
    let s : State := { captured packetE with pktI := 5, h := 7, obs := { Obs.empty with typeO := some 3 } };
    readsDecoder .getChip = true ∧ (captured packetE).params.outReg = true ∧ s.params = (captured packetE).params ∧
      s.resetSeen = (captured packetE).resetSeen ∧ s.validQ = (captured packetE).validQ ∧ s.pktQ = (captured packetE).pktQ ∧
      s.obs ≠ (captured packetE).obs ∧ (obsAfter (exec .getChip (captured packetE))).isSome = true := by decide

theorem witness_FieldsSpanningBytesAreAssembledLowFirst :
    (captured 0x0000000000000300).Shows 0x0000000000000300 ∧ Field.channel ≠ .chip ∧ Field.channel ≠ .timestamp := by decide

theorem witness_FieldMasksPartitionTheWord : Field.type ≠ Field.parityBit := by decide

theorem witness_PacketRows : State.reset.params.outReg = false ∧ (State.resetOf regBuild).params.outReg = true ∧
    (State.resetOf regBuild).resetSeen = true ∧ (State.powerUp regBuild).resetSeen = false := by decide

theorem witness_InvalidPacketIsStillDecoded :
    State.reset.params.outReg = false ∧ (State.resetOf regBuild).resetSeen = true ∧
    treeLegal State.reset.params.xorTree = true ∧ popcount (0 : Word) % 2 = 0 ∧
    popcount (0xFFFFFFFFFFFFFFFF : Word) % 2 = 0 := by decide

theorem witness_OutputsForgetHistory :
    (showing packetE).params = State.reset.params ∧ (showing packetE).params.outReg = false ∧
    isInsert (.reservedCF 0xE 5) = true ∧ State.reset.params.hasInsert = true ∧
    (State.resetOf regBuild).params.hasInsert = true ∧ State.reset.h = (State.resetOf regBuild).h := by decide

/-- The widest and the narrowest field at their largest values, and a second field. -/
theorem witness_GettersAndSettersAreInverse :
    (0x7FFFFFFF : Val).toNat < 2 ^ fieldWidth .timestamp ∧ (1 : Val).toNat < 2 ^ fieldWidth .parityBit ∧
    Field.first ≠ .timestamp ∧ State.reset.params.hasInsert = true := by decide

theorem witness_SettersOfDifferentFieldsCommute :
    Field.chip ≠ .type ∧ Field.parityBit ≠ .downstream ∧ State.reset.params.hasInsert = true := by decide

theorem witness_SettersDoNotUpdateParity :
    State.reset.params.hasInsert = true ∧ treeLegal State.reset.params.xorTree = true ∧ Field.downstream ≠ .parityBit := by
  decide

theorem witness_SetterTakesItsValueModuloTheWidth :
    State.reset.params.hasInsert = true ∧ Field.type ≠ .chip ∧ (0x1FF : Val).toNat % 2 ^ fieldWidth .chip = 0xFF := by decide

theorem witness_SetParityBitIsUnchecked :
    (holding packetE).params.hasInsert = true ∧ treeLegal defaultTree = true ∧
    (0xF6C39234567854A8 : Word) = (0x1 : Val).extractLsb' 0 1 ++ (holding packetE).h.extractLsb' 0 63 := by decide

theorem witness_UpdateParityCommand :
    (holding 0x767F9234567854A8).params.hasInsert = true ∧
    (0xF67F9234567854A8 : Word) =
      BitVec.ofBool (!xorReduce ((holding 0x767F9234567854A8).h.extractLsb' 0 63)) ++
        (holding 0x767F9234567854A8).h.extractLsb' 0 63 := by
  rw [xorReduce_eq_popcount]
  decide

theorem witness_ReservedCommandsPassThrough :
    State.reset.params.hasInsert = true ∧ ((0xC : Sel) = 0xC ∨ (0xC : Sel) = 0xD ∨ (0xC : Sel) = 0xE ∨ (0xC : Sel) = 0xF) ∧
    ((0xF : Sel) = 0xC ∨ (0xF : Sel) = 0xD ∨ (0xF : Sel) = 0xE ∨ (0xF : Sel) = 0xF) := by decide

/-- A valid packet in `H` and an invalid one at the decoder. -/
theorem witness_UpdateParityRepairsOnlyBit63 :
    let s : State := { captured 0 with h := packetE }
    treeLegal s.params.xorTree = true ∧ s.params.hasInsert = true ∧ s.Shows 0 ∧ parityOk s.params.xorTree 0 = false ∧
      parityOk s.params.xorTree s.h = true := by decide

theorem witness_CascadedCommandsEqualTheSequence :
    let s := running defaultParams [.code (.command 0x2A1), .code (.command 0xB), .dec]
    s.params.hasInsert = true ∧
      s.program = [(0x2A1 : Cmd), 0xB].map (fun c => HostStep.code (.command c)) ++ [.dec] := by decide

/-- Two orders of one BUILD with the parity bit listed, on two states of different builds. -/
theorem witness_BuildGivesAValidPacketInAnyOrder :
    let fvs : List (Field × Val) := [(.chip, 0x1FF), (.type, 3), (.parityBit, 1)];
    let fvs' : List (Field × Val) := [(.parityBit, 1), (.type, 3), (.chip, 0x1FF)];
    let s := running defaultParams (pseudoBuild fvs ++ [.dec]);
    let s' := running regBuild (pseudoBuild fvs');
    s.params.hasInsert = true ∧ s.program = pseudoBuild fvs ++ [.dec] ∧ Field.chip ≠ .parityBit ∧
      (fvs.map Prod.fst).Nodup ∧ fvs.Perm fvs' ∧ s'.params.hasInsert = true ∧ s'.program = pseudoBuild fvs' ++ [] := by decide

theorem witness_InsertUnitAndDecoderAreNotConnected :
    (∃ t, exec (.setChip 0xFF) State.reset = .next t ∧ isInsert (.setChip 0xFF) = true) ∧
    (∃ t, exec (.pktData 0) (running regBuild []) = .next t ∧ isInsert (.pktData 0) = false) ∧
    (∃ t, exec .getChip State.reset = .next t ∧ isInsert .getChip = false) :=
  ⟨⟨_, rfl, rfl⟩, ⟨_, rfl, rfl⟩, ⟨_, rfl, rfl⟩⟩

/-- Of SingleBitFlipTogglesValidity: the lowest and highest bit, and a flip of the two ends of the word. -/
theorem witness_SingleBitFlipTogglesValidity :
    treeLegal defaultTree = true ∧ 0 < 64 ∧ 63 < 64 ∧ popcount (0x8000000000000001 : Word) % 2 = 0 := by decide

theorem witness_ResetValues : regBuild.outReg = true ∧ defaultParams.outReg = false := by decide

theorem witness_InvariantHoldsAtReset : treeLegal regBuild.xorTree = true ∧ treeLegal bareBuild.xorTree = true := by decide

/-- One gate over all the given inputs. -/
def wideGate : List Nat → XorGate
  | [] => .nil
  | i :: is => .cons (.input i) (wideGate is)

/-- One gate of 63 inputs is a legal shape (R8), and so is one that reads input 5 three times; one that reads an input twice,
misses one, or reads bit 63 is not. -/
theorem test_legal_shapes :
    treeLegal (.gate (wideGate (List.range 63))) = true ∧ treeLegal (.gate (wideGate (5 :: 5 :: List.range 63))) = true ∧
    treeLegal (.gate (wideGate (5 :: List.range 63))) = false ∧ treeLegal (.gate (wideGate (List.range 62))) = false ∧
    treeLegal (.gate (wideGate (List.range 64))) = false := by decide

/-- Three gates of 21 inputs under a gate of 3 validate E like the default tree (PV5). -/
theorem test_wide_gates_validate :
    let block (k : Nat) : XorTree := .gate (wideGate (List.range' (21 * k) 21));
    parityOk (.gate (.cons (block 0) (.cons (block 1) (.cons (block 2) .nil)))) packetE = true := by decide

/-! States that meet the invariant, with a step of each outcome. -/

theorem inv_running_default (hs : List HostStep) : (running defaultParams hs).Inv :=
  { tree := (by decide : treeLegal defaultTree = true), stateless := fun _ => ⟨rfl, rfl, rfl⟩,
    validKnown := nofun, captured := nofun,
    insertWires := (by decide : ((0 : Word), false) = insertUnit 0 0 0),
    seenValid := nofun, seenData := .inr rfl }

theorem inv_running_bare (hs : List HostStep) : (running bareBuild hs).Inv :=
  { tree := (by decide : treeLegal defaultTree = true), stateless := fun _ => ⟨rfl, rfl, rfl⟩,
    validKnown := nofun, captured := nofun,
    insertWires := (by decide : ((0 : Word), false) = insertUnit 0 0 0),
    seenValid := nofun, seenData := .inr rfl }

theorem inv_running_registered (hs : List HostStep) : (running regBuild hs).Inv :=
  { tree := (by decide : treeLegal defaultTree = true), stateless := nofun,
    validKnown := fun _ => nofun, captured := nofun,
    insertWires := (by decide : ((0 : Word), false) = insertUnit 0 0 0),
    seenValid := nofun, seenData := .inr rfl }

/-- A step that faults, a step refused for each reason, and a read of an absent port that does neither, from states that meet the invariant. -/
theorem witness_NothingElseStops :
    ((running regBuild [.code (.port .chipO)]).Inv ∧
      step (running regBuild [.code (.port .chipO)]) = .fault .dataOutputNotValid) ∧
    ((running bareBuild [.code (.command 0xB)]).Inv ∧
      step (running bareBuild [.code (.command 0xB)]) = .refused .insertUnitAbsent) ∧
    ((running defaultParams [.clk true false]).Inv ∧
      step (running defaultParams [.clk true false]) = .refused .clkWithoutRegister) ∧
    ((running regBuild [.dec]).Inv ∧ step (running regBuild [.dec]) = .refused .decWithRegister) ∧
    ((running defaultParams [.readOutValid]).Inv ∧
      ∃ t, step (running defaultParams [.readOutValid]) = .next t) :=
  ⟨⟨inv_running_registered _, rfl⟩, ⟨inv_running_bare _, rfl⟩, ⟨inv_running_default _, rfl⟩, ⟨inv_running_registered _, rfl⟩,
    ⟨inv_running_default _, _, rfl⟩⟩

/-- Of EveryStepKeepsTheInvariant, NoStepChangesTheBuild and PktQChangesOnlyByCapture: a capture. -/
theorem witness_capturing_step :
    (running regBuild [.clk true false]).Inv ∧
    ∃ t, step (running regBuild [.clk true false]) = .next t ∧ t.pktQ ≠ (running regBuild [.clk true false]).pktQ :=
  ⟨inv_running_registered _, _, rfl, by decide⟩

end Sys2Proof.Tests
end

/-! PROOFS. The statements of 10_state.md: what one move of the machine can do, the invariant, the register stage, and the
decoder's reads. -/

namespace Sys2Proof.Machine

/-! ### What one move can do -/

/-- A completed move of the host from `s` leads to the state indexed: one constructor for each way a state changes. -/
inductive Move (s : State) : State → Prop where
  /-- `H` is loaded (30_encoding.md R80). -/
  | load (w : Word) : Move s (setH w s)
  /-- `pkt_i` is driven and the combinational outputs are observed (10_state.md R21). -/
  | present (p : Word) (comb : s.params.outReg = false) : Move s (observe (setPktI p s))
  /-- `pkt_i` is driven across a rising edge and the registered outputs are observed (10_state.md R29). -/
  | edge (p : Word) (v r : Bool) (reg : s.params.outReg = true) : Move s (observe (clockEdge v r (setPktI p s)))
  /-- `out_valid_o` is read (10_state.md R28). -/
  | readValid : Move s (setObs { s.obs with outValidO := outValid s } s)
  /-- A decoder data port is read (20_memory.md R44). -/
  | readData (record : Word → Obs → Obs) (p : Word) (shown : s.Shows p)
      (keepsValid : (record p s.obs).outValidO = s.obs.outValidO)
      (keepsAgrees : s.obs.Agrees (decoderOutputs s.params.xorTree p) →
        (record p s.obs).Agrees (decoderOutputs s.params.xorTree p)) :
      Move s (setObs (record p s.obs) s)
  /-- The insert unit carries out a command (10_state.md R27). -/
  | insert (sel : Sel) (v : Val) :
      Move s (setH (insertUnit s.h sel v).1 (setInsert s.h sel v (insertUnit s.h sel v).1 (insertUnit s.h sel v).2 s))

theorem move_applyPacket (p : Word) (s : State) : Move s (applyPacket p s) := by
  unfold applyPacket
  split
  · next reg => exact .edge p true false reg
  · next comb => exact .present p (by simpa using comb)

theorem exec_packet (p : Word) (s : State) : exec (decode (.packet p)) s = .next (applyPacket p s) := by
  simp only [decode, decodePacket]
  split <;> rfl

theorem readsDecoder_decode_port (q : DecPort) : readsDecoder (decode (.port q)) = true := by
  cases q <;> rfl

theorem exec_decode_next {c : Code} {s t : State} (h : exec (decode c) s = .next t) : Move s t := by
  cases c with
  | packet p =>
    rw [exec_packet] at h
    cases h
    exact move_applyPacket p s
  | command c =>
    rw [exec_command] at h
    obtain ⟨-, rfl⟩ := issueInsert_next h
    exact .insert _ _
  | port q =>
    obtain ⟨record, hexec, hrecord⟩ := exec_of_readsDecoder (readsDecoder_decode_port q)
    rw [hexec] at h
    obtain ⟨p, shown, rfl⟩ := readPort_next h
    obtain ⟨-, keepsValid, keepsAgrees⟩ := hrecord s.params.xorTree p s.obs
    exact .readData _ p shown keepsValid keepsAgrees

theorem outValid_of_combinational {s : State} (comb : s.params.outReg = false) : outValid s = none := by
  simp [outValid, comb]

/-- `out_valid_o` shows a value exactly where the register stage has been reset and `valid_q` has that value. -/
theorem outValid_eq_some_iff {s : State} {b : Bool} :
    outValid s = some b ↔ s.params.outReg = true ∧ s.resetSeen = true ∧ s.validQ = some b := by
  simp [outValid, and_assoc]

theorem hostReadOutValid_next {s t : State} (h : hostReadOutValid s = .next t) :
    t = setObs { s.obs with outValidO := outValid s } s := by
  unfold hostReadOutValid at h
  split at h
  · split at h
    · next hb => rw [hb]; exact (Host.Outcome.next.inj h).symm
    · cases h
  · next comb =>
    rw [outValid_of_combinational (by simpa using comb)]
    exact (Host.Outcome.next.inj h).symm

theorem runHostStep_next {hs : HostStep} {s t : State} (h : runHostStep hs s = .next t) : Move s t := by
  cases hs with
  | ldw w => cases h; exact .load w
  | ldb b0 b1 b2 b3 b4 b5 b6 b7 => cases h; exact .load _
  | dec =>
    simp only [runHostStep, hostDec] at h
    split at h
    · cases h
    · next comb => cases h; exact .present s.h (by simpa using comb)
  | clk v r =>
    simp only [runHostStep, hostClk] at h
    split at h
    · next reg => cases h; exact .edge s.h v r reg
    · cases h
  | readOutValid => rw [hostReadOutValid_next h]; exact .readValid
  | code c => exact exec_decode_next h

/-- A completed step is idle, or it takes one pending host step off the list and makes its move. -/
theorem step_next {s t : State} (h : step s = .next t) : t = s ∨ ∃ rest, Move (setProgram rest s) t := by
  rcases step_cases s with ⟨-, idle⟩ | ⟨hs, rest, -, run⟩
  · exact .inl (Host.Outcome.next.inj (h.symm.trans idle))
  · exact .inr ⟨rest, runHostStep_next (run.symm.trans h)⟩

/-! ### The build and `pkt_q` -/

theorem clockEdge_params (v r : Bool) (s : State) : (clockEdge v r s).params = s.params := by rw [clockEdge_eq]

theorem Move.params {s t : State} (m : Move s t) : t.params = s.params := by
  cases m with
  | edge p v r => simp [clockEdge_params]
  | load | present | readValid | readData | insert => simp

/-- Settles O54: a completed step is idle or one move, and no move writes the build parameters. -/
theorem noStepChangesTheBuild : Obligations.NoStepChangesTheBuild := by
  intro s t h
  rcases step_next h with rfl | ⟨rest, m⟩
  · rfl
  · exact m.params

/-- A move that changes `pkt_q` is an edge that captures `pkt_i` (10_state.md R29). -/
theorem Move.pktQ {s t : State} (m : Move s t) (changed : t.pktQ ≠ s.pktQ) :
    s.params.outReg = true ∧ t.inValidI = true ∧ t.rst = false ∧ t.validQ = some true ∧ t.pktQ = some t.pktI := by
  cases m with
  | edge p v r reg =>
    simp only [observe_pktQ, clockEdge_eq, setPktI_pktQ, ne_eq, ite_eq_right_iff, Classical.not_imp] at changed
    obtain ⟨capture, -⟩ := changed
    obtain ⟨rfl, rfl⟩ : r = false ∧ v = true := by simpa using capture
    exact ⟨reg, by simp [clockEdge_eq]⟩
  | load | present | readValid | readData | insert => simp at changed

/-- Settles O55: of the moves, only the clock edge writes `pkt_q`, and only when it captures. -/
theorem pktQChangesOnlyByCapture : Obligations.PktQChangesOnlyByCapture := by
  intro s t h changed
  rcases step_next h with rfl | ⟨rest, m⟩
  · exact absurd rfl changed
  · exact m.pktQ changed

/-! ### The invariant -/

/-- The part of `State.Inv` that says nothing of the host's observation: the build, the register stage and the insert wires. -/
structure State.BlockInv (s : State) : Prop where
  tree : treeLegal s.params.xorTree = true
  stateless : s.params.outReg = false → s.validQ = none ∧ s.pktQ = none ∧ s.resetSeen = false
  validKnown : s.resetSeen = true → s.validQ ≠ none
  captured : s.validQ = some true → s.pktQ ≠ none
  insertWires : (s.insPktO, s.insIllegalO) = insertUnit s.insPktI s.insSelI s.insValI

theorem State.Inv.blockInv {s : State} (h : s.Inv) : s.BlockInv := { h with }

theorem State.BlockInv.setPktI {s : State} (h : s.BlockInv) (p : Word) : (setPktI p s).BlockInv := { h with }

theorem State.BlockInv.clockEdge {s : State} (h : s.BlockInv) (reg : s.params.outReg = true) (v r : Bool) :
    (clockEdge v r s).BlockInv := by
  rw [clockEdge_eq]
  exact
    { tree := h.tree
      stateless := fun comb => absurd (reg.symm.trans comb) (by decide)
      validKnown := fun _ => nofun
      captured := fun valid => by simp only [Option.some.inj valid]; simp
      insertWires := h.insertWires }

/-- Observing all outputs at once establishes what the invariant says of the observation. -/
theorem State.BlockInv.inv_observe {s : State} (h : s.BlockInv) : (observe s).Inv := by
  rcases observe_cases s with ⟨p, shown, e⟩ | ⟨-, e⟩
  · rw [e]
    exact
      { h with
        seenValid := fun _ => outValid_eq_some_iff.mp
        seenData := .inl ⟨p, shown, by constructor <;> exact fun _ e => (Option.some.inj e).symm⟩ }
  · rw [e]
    exact { h with seenValid := fun _ => outValid_eq_some_iff.mp, seenData := .inr rfl }

theorem Obs.agrees_of_empty (x : Option Bool) (o : DecOut) : ({ Obs.empty with outValidO := x } : Obs).Agrees o := by
  constructor <;> exact nofun

/-- What has been observed agrees with the packet shown, if one is. -/
theorem State.Inv.agrees {s : State} (h : s.Inv) {p : Word} (shown : s.Shows p) :
    s.obs.Agrees (decoderOutputs s.params.xorTree p) := by
  rcases h.seenData with ⟨q, shownq, agrees⟩ | nothing
  · rwa [shown.unique shownq]
  · rw [nothing]
    exact Obs.agrees_of_empty _ _

theorem State.Inv.setProgram {s : State} (h : s.Inv) (hs : List HostStep) : (setProgram hs s).Inv := { h with }

theorem State.Inv.setH {s : State} (h : s.Inv) (w : Word) : (setH w s).Inv := { h with }

theorem State.Inv.setInsert {s : State} (h : s.Inv) (p : Word) (sel : Sel) (v : Val) :
    (setInsert p sel v (insertUnit p sel v).1 (insertUnit p sel v).2 s).Inv := { h with insertWires := rfl }

theorem State.Inv.readValid {s : State} (h : s.Inv) : (setObs { s.obs with outValidO := outValid s } s).Inv :=
  { h with
    seenValid := fun _ => outValid_eq_some_iff.mp
    seenData := by
      rcases h.seenData with ⟨p, shown, agrees⟩ | nothing
      · exact .inl ⟨p, shown, { agrees with }⟩
      · refine .inr ?_
        rw [nothing]
        rfl }

theorem Move.inv {s t : State} (m : Move s t) (h : s.Inv) : t.Inv := by
  cases m with
  | load w => exact h.setH w
  | present p => exact (h.blockInv.setPktI p).inv_observe
  | edge p v r reg => exact ((h.blockInv.setPktI p).clockEdge reg v r).inv_observe
  | readValid => exact h.readValid
  | readData record p shown keepsValid keepsAgrees =>
    exact
      { h with
        seenValid := fun b seen => h.seenValid b (keepsValid.symm.trans seen)
        seenData := .inl ⟨p, shown, keepsAgrees (h.agrees shown)⟩ }
  | insert sel v => exact (h.setInsert s.h sel v).setH _

/-- Settles O53: taking a step off the list leaves the invariant, and so does every move. -/
theorem everyStepKeepsTheInvariant : Obligations.EveryStepKeepsTheInvariant := by
  intro s t inv h
  rcases step_next h with rfl | ⟨rest, m⟩
  · exact inv
  · exact m.inv (inv.setProgram rest)

theorem insertUnit_zero : insertUnit 0 0 0 = (0, false) := by decide

theorem resetOf_inv {b : Params} (legal : treeLegal b.xorTree = true) : (State.resetOf b).Inv where
  tree := legal
  stateless comb := by simp [State.resetOf, show b.outReg = false from comb]
  validKnown seen := by simp [State.resetOf, show b.outReg = true from seen]
  captured valid := by cases hb : b.outReg <;> simp [State.resetOf, hb] at valid
  insertWires := insertUnit_zero.symm
  seenValid := nofun
  seenData := .inr rfl

theorem powerUp_inv {b : Params} (legal : treeLegal b.xorTree = true) : (State.powerUp b).Inv where
  tree := legal
  stateless _ := ⟨rfl, rfl, rfl⟩
  validKnown := nofun
  captured := nofun
  insertWires := insertUnit_zero.symm
  seenValid := nofun
  seenData := .inr rfl

/-- Settles O52: the machine's reset is that of the default build, whose tree is legal. -/
theorem invariantHoldsAtReset : Obligations.InvariantHoldsAtReset :=
  ⟨resetOf_inv (by decide), fun _ legal => ⟨resetOf_inv legal, powerUp_inv legal⟩⟩

/-- Settles O51: the two builds differ in `valid_q` alone. -/
theorem resetValues : Obligations.ResetValues := by
  refine ⟨fun b reg => ?_, fun b comb => ?_, fun b => ⟨rfl, rfl⟩, rfl, rfl, rfl⟩
  · exact ⟨by simp [State.resetOf, reg], rfl⟩
  · exact ⟨by simp [State.resetOf, comb], rfl⟩

/-! ### The register stage -/

/-- Settles O13: a clock step is an edge followed by an observation, which writes `OBS` only. -/
theorem clockEdgeUpdatesTheRegisterStage : Obligations.ClockEdgeUpdatesTheRegisterStage := by
  intro s v r rest hprog reg
  obtain ⟨o, ho⟩ := observe_eq_setObs (clockEdge v r (setPktI s.h (setProgram rest s)))
  have hrun : step s = .next (setObs o (clockEdge v r (setPktI s.h (setProgram rest s)))) := by
    simp [step_of_program_cons hprog, runHostStep, hostClk, reg, ho]
  refine ⟨o, ?_⟩
  rw [hrun, clockEdge_eq]
  cases r <;> cases v <;> rfl

/-- Settles O15: the read answers with what `out_valid_o` shows, where the port exists and a reset has been seen. -/
theorem outValidRead : Obligations.OutValidRead := by
  intro s rest hprog
  rw [step_of_program_cons hprog, runHostStep, hostReadOutValid, setProgram_params]
  refine ⟨fun reg seen b hb => ?_, fun reg unseen => ?_, fun comb => ?_⟩
  · have shown : outValid (setProgram rest s) = some b := outValid_eq_some_iff.mpr ⟨reg, seen, hb⟩
    rw [if_pos reg, shown]
    rfl
  · have absent : outValid (setProgram rest s) = none := by simp [outValid, unseen]
    rw [if_pos reg, absent]
  · rw [if_neg (by simp [comb])]
    rfl

/-! ### Packet rows -/

theorem applyPacket_combinational {s : State} (comb : s.params.outReg = false) (p : Word) :
    applyPacket p s = { s with pktI := p, obs := obsOf none (decoderOutputs s.params.xorTree p) } := by
  have shown : (setPktI p s).Shows p := .inl ⟨comb, rfl⟩
  have absent : outValid (setPktI p s) = none := outValid_of_combinational comb
  rw [applyPacket, if_neg (by simp [comb]), observe_of_shows shown, absent]
  rfl

theorem observe_of_error {s : State} {f : Fault} (h : decoderWord s = .error f) :
    observe s = setObs { Obs.empty with outValidO := outValid s } s := by
  simp [observe, h]

/-- In the registered build, with a packet captured, an observation shows its outputs once a reset has been seen, and nothing
before (10_state.md R31). -/
theorem observe_of_captured {s : State} {p : Word} (reg : s.params.outReg = true) (valid : s.validQ = some true)
    (packet : s.pktQ = some p) :
    observe s =
      setObs (if s.resetSeen = true then obsOf (some true) (decoderOutputs s.params.xorTree p) else Obs.empty) s := by
  cases seen : s.resetSeen with
  | true =>
    rw [observe_of_shows (.inr ⟨reg, seen, valid, packet⟩), outValid_eq_some_iff.mpr ⟨reg, seen, valid⟩]
    rfl
  | false =>
    have unread : decoderWord s = .error .readBeforeReset := by simp [decoderWord, reg, seen]
    have absent : outValid s = none := by simp [outValid, seen]
    rw [observe_of_error unread, absent]
    rfl

theorem applyPacket_registered {s : State} (reg : s.params.outReg = true) (p : Word) :
    applyPacket p s = { s with
      pktI := p, inValidI := true, rst := false, validQ := some true, pktQ := some p,
      obs := if s.resetSeen = true then obsOf (some true) (decoderOutputs s.params.xorTree p) else Obs.empty } := by
  have captured : clockEdge true false (setPktI p s) =
      { s with pktI := p, inValidI := true, rst := false, validQ := some true, pktQ := some p } := by
    simp [clockEdge_eq, setPktI]
  rw [applyPacket, if_pos reg, captured]
  exact observe_of_captured reg rfl rfl

/-- Settles O29: each packet row is the application of its packet. -/
theorem packetAppliedToTheCombinationalDecoder : Obligations.PacketAppliedToTheCombinationalDecoder := by
  intro s p comb
  rw [← applyPacket_combinational comb]
  exact ⟨exec_pktData s p, exec_pktError s p, exec_pktWrite s p, exec_pktRead s p⟩

/-- Settles O30: each packet row is the application of its packet. -/
theorem packetCapturedByTheRegisteredDecoder : Obligations.PacketCapturedByTheRegisteredDecoder := by
  intro s p reg
  refine ⟨_, rfl, ?_⟩
  rw [← applyPacket_registered reg]
  exact ⟨exec_pktData s p, exec_pktError s p, exec_pktWrite s p, exec_pktRead s p⟩

/-! ### The decoder's reads -/

theorem readPort_of_error {s : State} {f : Fault} (h : decoderWord s = .error f) (record : Word → Obs → Obs) :
    readPort record s = .fault f := by
  simp [readPort, h]

theorem exec_of_decoderWord_error {i : Instr} (hi : readsDecoder i = true) {s : State} {f : Fault}
    (h : decoderWord s = .error f) : exec i s = .fault f := by
  obtain ⟨record, hexec, -⟩ := exec_of_readsDecoder hi
  rw [hexec, readPort_of_error h]

/-- Settles O24: in each of the three cases the decoder has no word to show, and says with which fault. -/
theorem decoderReadsFaultWithoutAValidPacket : Obligations.DecoderReadsFaultWithoutAValidPacket := by
  intro s i hi reg
  refine ⟨fun unseen => ?_, fun seen invalid => ?_, fun seen valid absent => ?_⟩
  · exact exec_of_decoderWord_error hi (by simp [decoderWord, reg, unseen])
  · exact exec_of_decoderWord_error hi (by simp [decoderWord, reg, seen, invalid])
  · exact exec_of_decoderWord_error hi (by simp [decoderWord, reg, seen, valid, absent])

/-- In the registered build what is shown depends on the registers and the reset mark alone (10_state.md R28). -/
theorem State.Shows.of_registers {s s' : State} {p : Word} (shown : s.Shows p) (reg : s.params.outReg = true)
    (params : s'.params = s.params) (seen : s'.resetSeen = s.resetSeen) (valid : s'.validQ = s.validQ)
    (packet : s'.pktQ = s.pktQ) : s'.Shows p := by
  rcases shown with ⟨comb, -⟩ | registered
  · exact absurd (reg.symm.trans comb) (by decide)
  · exact .inr (by rwa [params, seen, valid, packet])

/-- Settles O26: a read records the packet shown, and states with the same registers show the same packet. -/
theorem registeredReadsIgnoreTheInputPins : Obligations.RegisteredReadsIgnoreTheInputPins := by
  constructor
  · intro s t i p v r hi reg h
    obtain ⟨record, hexec, -⟩ := exec_of_readsDecoder hi
    rw [hexec] at h ⊢
    obtain ⟨q, shown, rfl⟩ := readPort_next h
    have shown' : State.Shows { s with pktI := p, inValidI := v, rst := r } q := shown.of_registers reg rfl rfl rfl rfl
    exact readPort_of_shows shown' (record s.params.xorTree)
  · intro s s' t i hi reg params seen valid packet h
    obtain ⟨record, hexec, -⟩ := exec_of_readsDecoder hi
    rw [hexec] at h
    obtain ⟨q, shown, -⟩ := readPort_next h
    have hexec' : exec i s' = readPort (record s.params.xorTree) s' := params ▸ hexec s'
    have shown' : s'.Shows q := shown.of_registers reg params seen valid packet
    have shownObs : State.Shows { s with obs := s'.obs } q := shown.of_registers reg rfl rfl rfl rfl
    exact ⟨record s.params.xorTree q s'.obs, hexec'.trans (readPort_of_shows shown' _),
      (hexec _).trans (readPort_of_shows shownObs _)⟩

/-! ### Independence of history -/

/-- An insert row, well-formed or not, issues one command whose outputs are a function of `H` (10_state.md R27). -/
theorem exec_isInsert_outputs {i : Instr} (hi : isInsert i = true) :
    ∃ (sel : Sel) (v : Val) (out : Word → Word × Bool), ∀ s, exec i s = issueInsert sel v (out s.h).1 (out s.h).2 s := by
  cases hw : i.wellFormed with
  | true =>
    obtain ⟨sel, v, hexec⟩ := exec_of_isInsert hi hw
    exact ⟨sel, v, fun w => insertUnit w sel v, hexec⟩
  | false =>
    obtain ⟨sel, v, rfl⟩ : ∃ sel v, i = .reservedCF sel v := by
      cases i <;> simp [isInsert, Instr.wellFormed] at hi hw ⊢
    exact ⟨sel, v, fun w => (w, true), fun s => exec_reservedCF s sel v⟩

theorem exec_of_isPacket {i : Instr} {p : Word} (hi : i = .pktData p ∨ i = .pktError p ∨ i = .pktWrite p ∨ i = .pktRead p)
    (s : State) : exec i s = .next (applyPacket p s) := by
  rcases hi with rfl | rfl | rfl | rfl <;> rfl

/-- Settles O33: the observation of a packet is a function of the build and the packet, and the insert outputs are one of
`H` and the command. -/
theorem outputsForgetHistory : Obligations.OutputsForgetHistory := by
  constructor
  · intro s s' i p params comb hi
    refine ⟨_, _, exec_of_isPacket hi s, exec_of_isPacket hi s', ?_⟩
    rw [applyPacket_combinational comb, applyPacket_combinational (params ▸ comb), params]
  · intro s s' i hi present present' hh
    obtain ⟨sel, v, out, hexec⟩ := exec_isInsert_outputs hi
    refine ⟨_, _, (hexec s).trans (issueInsert_of_present present ..),
      (hexec s').trans (issueInsert_of_present present' ..), ?_⟩
    simp [hh]

end Sys2Proof.Machine

/-! PROOFS. The statements of 20_memory.md: the bytes of the packet buffer, the fields they hold, the observation of a clock
step, and a repeated read. -/

namespace Sys2Proof.Machine

/-! ### The bytes of the buffer -/

theorem packetByte_eq_ofNat (p : Word) (k : Nat) : packetByte p k = BitVec.ofNat 8 (p.toNat / 256 ^ k) := by
  refine BitVec.eq_of_toNat_eq ?_
  rw [packetByte, BitVec.extractLsb'_toNat, Nat.shiftRight_eq_div_pow, Nat.pow_mul, BitVec.toNat_ofNat]

/-- Byte `k` of a number written as bytes, first byte least significant, is entry `k` of the list. -/
theorem ofNat_natOfBytes_div (bs : List Byte) (k : Nat) (hk : k < bs.length) :
    BitVec.ofNat 8 (natOfBytes bs / 256 ^ k) = bs[k] := by
  induction bs generalizing k with
  | nil => exact absurd hk (Nat.not_lt_zero k)
  | cons b bs ih =>
    cases k with
    | zero =>
      refine BitVec.eq_of_toNat_eq ?_
      have := b.isLt
      simp only [natOfBytes, BitVec.toNat_ofNat, Nat.pow_zero, Nat.div_one, List.getElem_cons_zero]
      omega
    | succ k =>
      have shifted : natOfBytes (b :: bs) / 256 ^ (k + 1) = natOfBytes bs / 256 ^ k := by
        rw [Nat.pow_succ', ← Nat.div_div_eq_div_mul, natOfBytes, Nat.add_mul_div_left _ _ (by decide),
          Nat.div_eq_of_lt b.isLt, Nat.zero_add]
      rw [shifted, ih k (Nat.lt_of_succ_lt_succ hk), List.getElem_cons_succ]

/-- The bytes of a packet assembled from eight bytes are those bytes, in order (20_memory.md R40). -/
theorem map_packetByte_packetOfBytes (b0 b1 b2 b3 b4 b5 b6 b7 : Byte) :
    (List.range 8).map (packetByte (packetOfBytes b0 b1 b2 b3 b4 b5 b6 b7)) = [b0, b1, b2, b3, b4, b5, b6, b7] := by
  refine List.ext_getElem rfl fun k _ hk => ?_
  rw [List.getElem_map, List.getElem_range, packetByte_eq_ofNat, toNat_packetOfBytes, ofNat_natOfBytes_div _ k hk]

/-- Settles O11: the step is a load of the assembled word, whose bytes are the bytes loaded. -/
theorem loadBytesStep : Obligations.LoadBytesStep := by
  intro s b0 b1 b2 b3 b4 b5 b6 b7 rest hprog
  have bytes := (map_packetByte_packetOfBytes b0 b1 b2 b3 b4 b5 b6 b7).symm
  refine ⟨packetOfBytes b0 b1 b2 b3 b4 b5 b6 b7, ?_, rfl, bytes, bytes, fun k j _ hj => ?_⟩
  · rw [step_of_program_cons hprog]
    rfl
  · rw [getLsbD_packetByte, decide_eq_true hj, Bool.true_and]

/-! ### Fields that span bytes -/

/-- A field output holds the field's bits of the word (30_encoding.md R65). -/
theorem setWidth_getField (f : Field) (p : Word) :
    (getField f p).setWidth (fieldWidth f) = p.extractLsb' (fieldLo f) (fieldWidth f) := by
  refine BitVec.eq_of_getLsbD_eq fun i hi => ?_
  simp only [BitVec.getLsbD_setWidth, getLsbD_getField, BitVec.getLsbD_extractLsb', hi, decide_true, Bool.true_and]

theorem chipOf_eq_extractLsb' (p : Word) : chipOf p = p.extractLsb' 2 8 := setWidth_getField .chip p

theorem timestampOf_eq_extractLsb' (p : Word) : timestampOf p = p.extractLsb' 16 31 := setWidth_getField .timestamp p

/-- A slice inside one byte is a slice of the word. -/
theorem extractLsb'_packetByte (p : Word) (k : Nat) {i n : Nat} (h : i + n ≤ 8) :
    (packetByte p k).extractLsb' i n = p.extractLsb' (8 * k + i) n := by
  refine BitVec.eq_of_getLsbD_eq fun j hj => ?_
  simp only [BitVec.getLsbD_extractLsb', getLsbD_packetByte, show i + j < 8 by omega, decide_true, Bool.true_and,
    Nat.add_assoc]

theorem chipOf_eq_bytes (p : Word) :
    chipOf p = (packetByte p 1).extractLsb' 0 2 ++ (packetByte p 0).extractLsb' 2 6 := by
  rw [extractLsb'_packetByte p 1 (by decide), extractLsb'_packetByte p 0 (by decide), chipOf_eq_extractLsb',
    BitVec.extractLsb'_append_extractLsb'_eq_extractLsb' (by decide)]

theorem timestampOf_eq_bytes (p : Word) :
    timestampOf p = (packetByte p 5).extractLsb' 0 7 ++ packetByte p 4 ++ packetByte p 3 ++ packetByte p 2 := by
  rw [extractLsb'_packetByte p 5 (by decide), timestampOf_eq_extractLsb', packetByte, packetByte, packetByte,
    BitVec.extractLsb'_append_extractLsb'_eq_extractLsb' (by decide),
    BitVec.extractLsb'_append_extractLsb'_eq_extractLsb' (by decide),
    BitVec.extractLsb'_append_extractLsb'_eq_extractLsb' (by decide)]

/-- Settles O27: the two fields are concatenations of adjacent slices of the bytes, and the other fields' positions are
compared one by one. -/
theorem fieldsSpanningBytesAreAssembledLowFirst : Obligations.FieldsSpanningBytesAreAssembledLowFirst := by
  constructor
  · intro s p shown
    rw [← chipOf_eq_bytes, ← timestampOf_eq_bytes, exec_getChip, exec_getTimestamp]
    exact ⟨_, _, readPort_of_shows shown _, rfl, readPort_of_shows shown _, rfl⟩
  · intro f notChip notTimestamp
    cases f with
    | chip => exact absurd rfl notChip
    | timestamp => exact absurd rfl notTimestamp
    | type | channel | first | data | trigType | localFifo | sharedFifo | downstream | parityBit => rfl

/-! ### What a clock step observes -/

section clockEdge
variable (v r : Bool) (s : State)

@[simp] theorem clockEdge_validQ : (clockEdge v r s).validQ = some (!r && v) := by rw [clockEdge_eq]

@[simp] theorem clockEdge_pktQ : (clockEdge v r s).pktQ = if !r && v then some s.pktI else s.pktQ := by
  rw [clockEdge_eq]

@[simp] theorem clockEdge_resetSeen : (clockEdge v r s).resetSeen = (s.resetSeen || r) := by rw [clockEdge_eq]

end clockEdge

theorem step_clk {s : State} {v r : Bool} {rest : List HostStep} (hprog : s.program = .clk v r :: rest)
    (reg : s.params.outReg = true) :
    step s = .next (observe (clockEdge v r (setPktI s.h (setProgram rest s)))) := by
  simp [step_of_program_cons hprog, runHostStep, hostClk, reg]

/-- Before the first reset an observation of the registered outputs shows nothing (10_state.md R31). -/
theorem observe_obs_of_unreset {s : State} (reg : s.params.outReg = true) (unseen : s.resetSeen = false) :
    (observe s).obs = Obs.empty := by
  have unread : decoderWord s = .error .readBeforeReset := by simp [decoderWord, reg, unseen]
  have absent : outValid s = none := by simp [outValid, unseen]
  rw [observe_of_error unread, absent]
  rfl

/-- While `valid_q = 0` an observation shows `out_valid_o = 0` and no data (10_state.md R31). -/
theorem observe_obs_of_invalid {s : State} (reg : s.params.outReg = true) (seen : s.resetSeen = true)
    (invalid : s.validQ = some false) : (observe s).obs = { Obs.empty with outValidO := some false } := by
  have unread : decoderWord s = .error .dataOutputNotValid := by simp [decoderWord, reg, seen, invalid]
  rw [observe_of_error unread, outValid_eq_some_iff.mpr ⟨reg, seen, invalid⟩]
  rfl

/-- Settles O14: the register stage after the edge, in each case, says what the observation finds. -/
theorem clockStepObservation : Obligations.ClockStepObservation := by
  intro s v r rest hprog reg
  have regAfter : (clockEdge v r (setPktI s.h (setProgram rest s))).params.outReg = true := by
    rwa [clockEdge_params]
  refine ⟨_, step_clk hprog reg, ?_, ?_, ?_, ?_⟩
  · rintro rfl
    exact observe_obs_of_invalid regAfter (by simp) (by simp)
  · rintro rfl seen rfl
    rw [observe_of_captured (p := s.h) regAfter (by simp) (by simp)]
    simp [seen, clockEdge_params]
  · rintro rfl seen rfl
    exact observe_obs_of_invalid regAfter (by simpa using seen) (by simp)
  · rintro rfl unseen
    exact observe_obs_of_unreset regAfter (by simpa using unseen)

/-! ### A repeated read -/

/-- Settles O25: a completed read records the packet shown in `OBS`, which leaves the packet shown, and recording it twice
is recording it once. -/
theorem readingHasNoSideEffect : Obligations.ReadingHasNoSideEffect := by
  intro s t i hi h
  obtain ⟨record, hexec, hrecord⟩ := exec_of_readsDecoder hi
  rw [hexec] at h ⊢
  obtain ⟨p, shown, rfl⟩ := readPort_next h
  obtain ⟨idempotent, -⟩ := hrecord s.params.xorTree p s.obs
  refine ⟨rfl, ?_⟩
  have shownAgain : (setObs (record s.params.xorTree p s.obs) s).Shows p := shown
  rw [readPort_of_shows shownAgain, setObs_params, setObs_obs, idempotent]
  rfl

end Sys2Proof.Machine

/-! PROOFS. The statements of 30_encoding.md: decoding and encoding, the opcode table's rows, the fields, the host's steps, and
the word a `BUILD` makes. -/

namespace Sys2Proof.Machine

/-! ### Fields -/

theorem mem_fields (f : Field) : f ∈ fields := by
  cases f <;> decide

theorem fieldLo_add_fieldWidth_le (f : Field) : fieldLo f + fieldWidth f ≤ 64 := by
  cases f <;> decide

/-- Two different fields stand one above the other (30_encoding.md R61). -/
theorem fields_disjoint {f g : Field} (h : f ≠ g) :
    fieldLo f + fieldWidth f ≤ fieldLo g ∨ fieldLo g + fieldWidth g ≤ fieldLo f := by
  have table : ∀ f ∈ fields, ∀ g ∈ fields, f ≠ g →
      fieldLo f + fieldWidth f ≤ fieldLo g ∨ fieldLo g + fieldWidth g ≤ fieldLo f := by decide
  exact table f (mem_fields f) g (mem_fields g) h

theorem fieldMask_and_fieldMask {f g : Field} (h : f ≠ g) : fieldMask f &&& fieldMask g = 0 := by
  have apart := fields_disjoint h
  refine BitVec.eq_of_getLsbD_eq fun i _ => ?_
  simp only [BitVec.getLsbD_and, getLsbD_fieldMask, BitVec.ofNat_eq_ofNat, BitVec.getLsbD_zero, Bool.and_eq_false_iff,
    decide_eq_false_iff_not]
  omega

/-- Settles O28: the fields lie apart, and the rest is read off the table. -/
theorem fieldMasksPartitionTheWord : Obligations.FieldMasksPartitionTheWord := by
  refine ⟨fun f g => ⟨mem_fields f, fieldMask_and_fieldMask⟩, by decide, by decide, fun f => ?_⟩
  cases f <;> rfl

theorem setField_comm {f g : Field} (h : f ≠ g) (p : Word) (v w : Val) :
    setField g (setField f p v) w = setField f (setField g p w) v := by
  have apart := fields_disjoint h
  refine BitVec.eq_of_getLsbD_eq fun i hi => ?_
  simp only [getLsbD_setField, hi]
  split_ifs
  · omega
  all_goals rfl

theorem getField_setField_same (f : Field) (p : Word) (v : Val) : getField f (setField f p v) = truncField f v := by
  have fits := fieldLo_add_fieldWidth_le f
  refine BitVec.eq_of_getLsbD_eq fun i _ => ?_
  rw [getLsbD_getField, getLsbD_truncField]
  by_cases h : i < fieldWidth f
  · rw [getLsbD_setField _ _ _ _ (by omega), if_pos (by omega), Nat.add_sub_cancel_left]
  · simp [h]

theorem getField_setField_of_ne {f g : Field} (h : f ≠ g) (p : Word) (v : Val) :
    getField g (setField f p v) = getField g p := by
  have fits := fieldLo_add_fieldWidth_le g
  have apart := fields_disjoint h
  refine BitVec.eq_of_getLsbD_eq fun i _ => ?_
  rw [getLsbD_getField, getLsbD_getField]
  by_cases h : i < fieldWidth g
  · rw [getLsbD_setField _ _ _ _ (by omega), if_neg (by omega)]
  · simp [h]

theorem getField_zero (f : Field) : getField f 0 = 0 := by simp [getField]

theorem truncField_zero (f : Field) : truncField f 0 = 0 := by simp [truncField]

theorem exec_setterOf_next {s : State} (present : s.params.hasInsert = true) (f : Field) (v : Val) :
    ∃ t, exec (setterOf f v) s = .next t ∧ t.h = setField f s.h v ∧ t.params = s.params :=
  ⟨_, (exec_setterOf f v s).trans (issueInsert_of_present present ..), rfl, rfl⟩

/-- Settles O38: each setter completes and keeps the build, and the words commute. -/
theorem settersOfDifferentFieldsCommute : Obligations.SettersOfDifferentFieldsCommute := by
  intro f g v w s different present
  obtain ⟨t, ht, th, tparams⟩ := exec_setterOf_next present f v
  obtain ⟨u, hu, uh, uparams⟩ := exec_setterOf_next present g w
  obtain ⟨t', ht', th', -⟩ := exec_setterOf_next (s := t) (tparams ▸ present) g w
  obtain ⟨u', hu', uh', -⟩ := exec_setterOf_next (s := u) (uparams ▸ present) f v
  refine ⟨t, t', u, u', ht, ht', hu, hu', ?_⟩
  rw [th', th, uh', uh, setField_comm different]

/-! ### Packet words -/

section packetWord
variable {p : Word}

theorem decode_pktData (h : p.extractLsb' 0 2 = 0#2) : decode (.packet p) = .pktData p := by
  rw [decode, decodePacket, h]; rfl

theorem decode_pktError (h : p.extractLsb' 0 2 = 1#2) : decode (.packet p) = .pktError p := by
  rw [decode, decodePacket, h]; rfl

theorem decode_pktWrite (h : p.extractLsb' 0 2 = 2#2) : decode (.packet p) = .pktWrite p := by
  rw [decode, decodePacket, h]; rfl

theorem decode_pktRead (h : p.extractLsb' 0 2 = 3#2) : decode (.packet p) = .pktRead p := by
  rw [decode, decodePacket, h]; rfl

end packetWord

/-- Settles O4: decoding a packet word looks at its type code only. -/
theorem packetKindIsTheTypeCode : Obligations.PacketKindIsTheTypeCode :=
  fun _ => ⟨decode_pktData, decode_pktError, decode_pktWrite, decode_pktRead⟩

theorem typeCode_cases (p : Word) :
    p.extractLsb' 0 2 = 0#2 ∨ p.extractLsb' 0 2 = 1#2 ∨ p.extractLsb' 0 2 = 2#2 ∨ p.extractLsb' 0 2 = 3#2 := by
  have all : ∀ c : BitVec 2, c = 0#2 ∨ c = 1#2 ∨ c = 2#2 ∨ c = 3#2 := by decide
  exact all _

theorem encode_decode_packet (p : Word) :
    (decode (.packet p)).wellFormed = true ∧ encode (decode (.packet p)) = .packet p := by
  rcases typeCode_cases p with h | h | h | h
  · rw [decode_pktData h]; exact ⟨beq_iff_eq.mpr h, rfl⟩
  · rw [decode_pktError h]; exact ⟨beq_iff_eq.mpr h, rfl⟩
  · rw [decode_pktWrite h]; exact ⟨beq_iff_eq.mpr h, rfl⟩
  · rw [decode_pktRead h]; exact ⟨beq_iff_eq.mpr h, rfl⟩

/-! ### Command words -/

/-- A select is a field's, that of `UPDATE_PARITY`, or reserved (30_encoding.md R70, R72). -/
theorem sel_cases (sel : Sel) : (∃ f, sel = fieldSel f) ∨ sel = 0xB ∨ sel.extractLsb' 2 2 = 3#2 := by
  have table : ∀ sel : Sel, (∃ f ∈ fields, sel = fieldSel f) ∨ sel = 0xB ∨ sel.extractLsb' 2 2 = 3#2 := by decide
  rcases table sel with ⟨f, -, h⟩ | h
  · exact .inl ⟨f, h⟩
  · exact .inr h

/-- A command word is a setter's, that of `UPDATE_PARITY`, or reserved (30_encoding.md R70, R72). -/
theorem command_cases (c : Cmd) :
    (∃ f v, c = mkCmd v (fieldSel f)) ∨ (∃ v, c = mkCmd v 0xB) ∨
    (∃ sel v, sel.extractLsb' 2 2 = 3#2 ∧ c = mkCmd v sel) := by
  have parts := (mkCmd_cmdVal_cmdSel c).symm
  rcases sel_cases (cmdSel c) with ⟨f, h⟩ | h | h
  · exact .inl ⟨f, cmdVal c, h ▸ parts⟩
  · exact .inr (.inl ⟨cmdVal c, h ▸ parts⟩)
  · exact .inr (.inr ⟨cmdSel c, cmdVal c, h, parts⟩)

theorem reservedSel_cases {sel : Sel} (h : sel.extractLsb' 2 2 = 3#2) : sel = 0xC ∨ sel = 0xD ∨ sel = 0xE ∨ sel = 0xF := by
  revert sel
  decide

theorem decode_setter (f : Field) (v : Val) : decode (.command (mkCmd v (fieldSel f))) = setterOf f v := by
  rw [decode, decodeCommand, cmdSel_mkCmd, cmdVal_mkCmd]
  cases f <;> rfl

theorem decode_updateParity (v : Val) : decode (.command (mkCmd v 0xB)) = .updateParity v := by
  rw [decode, decodeCommand, cmdSel_mkCmd, cmdVal_mkCmd]
  rfl

theorem decode_reserved {sel : Sel} (h : sel.extractLsb' 2 2 = 3#2) (v : Val) :
    decode (.command (mkCmd v sel)) = .reservedCF sel v := by
  rw [decode, decodeCommand, cmdSel_mkCmd, cmdVal_mkCmd]
  rcases reservedSel_cases h with rfl | rfl | rfl | rfl <;> rfl

theorem encode_setterOf (f : Field) (v : Val) : encode (setterOf f v) = .command (mkCmd v (fieldSel f)) := by
  cases f <;> rfl

theorem wellFormed_setterOf (f : Field) (v : Val) : (setterOf f v).wellFormed = true := by
  cases f <;> rfl

theorem encode_decode_command (c : Cmd) :
    (decode (.command c)).wellFormed = true ∧ encode (decode (.command c)) = .command c := by
  rcases command_cases c with ⟨f, v, rfl⟩ | ⟨v, rfl⟩ | ⟨sel, v, h, rfl⟩
  · rw [decode_setter]
    exact ⟨wellFormed_setterOf f v, encode_setterOf f v⟩
  · rw [decode_updateParity]
    exact ⟨rfl, rfl⟩
  · rw [decode_reserved h]
    exact ⟨beq_iff_eq.mpr h, rfl⟩

/-! ### Decoding and encoding -/

/-- Settles O3: a packet word by its type code, a command word by its select, a port by the port list. -/
theorem encodeOfDecodeIsTheCode : Obligations.EncodeOfDecodeIsTheCode := by
  intro c
  cases c with
  | packet p => exact encode_decode_packet p
  | command c => exact encode_decode_command c
  | port q => cases q <;> exact ⟨rfl, rfl⟩

/-- An insert row is the setter of a field, `UPDATE_PARITY`, or reserved (30_encoding.md R70, R72). -/
theorem isInsert_cases {i : Instr} (h : isInsert i = true) :
    (∃ f v, i = setterOf f v) ∨ (∃ v, i = .updateParity v) ∨ (∃ sel v, i = .reservedCF sel v) := by
  cases i <;> simp only [isInsert, Bool.false_eq_true] at h
  case setType v => exact .inl ⟨.type, v, rfl⟩
  case setChip v => exact .inl ⟨.chip, v, rfl⟩
  case setChannel v => exact .inl ⟨.channel, v, rfl⟩
  case setTimestamp v => exact .inl ⟨.timestamp, v, rfl⟩
  case setFirst v => exact .inl ⟨.first, v, rfl⟩
  case setData v => exact .inl ⟨.data, v, rfl⟩
  case setTrigType v => exact .inl ⟨.trigType, v, rfl⟩
  case setLocalFifo v => exact .inl ⟨.localFifo, v, rfl⟩
  case setSharedFifo v => exact .inl ⟨.sharedFifo, v, rfl⟩
  case setDownstream v => exact .inl ⟨.downstream, v, rfl⟩
  case setParityBit v => exact .inl ⟨.parityBit, v, rfl⟩
  case updateParity v => exact .inr (.inl ⟨v, rfl⟩)
  case reservedCF sel v => exact .inr (.inr ⟨sel, v, rfl⟩)

theorem decode_encode_of_isInsert {i : Instr} (h : isInsert i = true) (hw : i.wellFormed = true) :
    decode (encode i) = i := by
  rcases isInsert_cases h with ⟨f, v, rfl⟩ | ⟨v, rfl⟩ | ⟨sel, v, rfl⟩
  · rw [encode_setterOf, decode_setter]
  · exact decode_updateParity v
  · exact decode_reserved (beq_iff_eq.mp hw) v

/-- Settles O2: a packet row by its type code, a decoder row by its port, an insert row by its select and value. -/
theorem decodeOfEncodeIsTheInstruction : Obligations.DecodeOfEncodeIsTheInstruction := by
  intro i hw
  cases i with
  | pktData p => exact decode_pktData (beq_iff_eq.mp hw)
  | pktError p => exact decode_pktError (beq_iff_eq.mp hw)
  | pktWrite p => exact decode_pktWrite (beq_iff_eq.mp hw)
  | pktRead p => exact decode_pktRead (beq_iff_eq.mp hw)
  | getType | typeDecode | getChip | getChannel | getTimestamp | getFirst | getData | getTrigType | getLocalFifo
  | getSharedFifo | getDownstream | getParityBit | genParity | validParity | updateParityDec => rfl
  | setType | setChip | setChannel | setTimestamp | setFirst | setData | setTrigType | setLocalFifo | setSharedFifo
  | setDownstream | setParityBit | updateParity | reservedCF => exact decode_encode_of_isInsert rfl hw

/-- Settles O1: each word is decoded. -/
theorem writtenOutWordsDecode : Obligations.WrittenOutWordsDecode := by
  unfold Obligations.WrittenOutWordsDecode
  decide

/-- Settles O7: a set step's word is decoded by its select, and the pseudo-instructions unfold to their steps. -/
theorem setStepsDecodeToTheirSetters : Obligations.SetStepsDecodeToTheirSetters :=
  ⟨fun f v => ⟨rfl, decode_setter f v⟩, rfl, decode_updateParity 0, rfl, fun _ => rfl⟩

/-! ### The opcode table -/

theorem tableRow_setterOf (f : Field) (v : Val) : (setterOf f v).tableRow = some (0xF, (fieldSel f).toNat) := by
  cases f <;> rfl

theorem fieldSel_lt (f : Field) : (fieldSel f).toNat < 0xC := by
  cases f <;> decide

/-- A command row matches one select below 0xC on all four bits, or the selects from 0xC on the upper two. -/
theorem tableRow_of_isInsert {i : Instr} (h : isInsert i = true) {m v : Nat} (row : i.tableRow = some (m, v)) :
    (m = 0xF ∧ v < 0xC) ∨ (m = 0xC ∧ v = 0xC) := by
  rcases isInsert_cases h with ⟨f, x, rfl⟩ | ⟨x, rfl⟩ | ⟨sel, x, rfl⟩
  · rw [tableRow_setterOf] at row
    cases row
    exact .inl ⟨rfl, fieldSel_lt f⟩
  · cases row
    exact .inl ⟨rfl, by decide⟩
  · cases row
    exact .inr ⟨rfl, rfl⟩

/-- A number whose low four bits are below 0xC does not have both upper ones set. -/
theorem and_0xC_ne_of_and_0xF_lt {n : Nat} (h : n &&& 0xF < 0xC) : n &&& 0xC ≠ 0xC := by
  have table : ∀ k < 0xC, k &&& 0xC ≠ 0xC := by decide
  have low : (n &&& 0xF) &&& 0xC = n &&& 0xC := Nat.and_assoc n 0xF 0xC
  exact low ▸ table _ h

theorem command_matches_tableRow (c : Cmd) :
    ∃ m v, (decode (.command c)).tableRow = some (m, v) ∧ c.toNat &&& m = v := by
  rcases command_cases c with ⟨f, v, rfl⟩ | ⟨v, rfl⟩ | ⟨sel, v, h, rfl⟩
  · rw [decode_setter]
    exact ⟨_, _, tableRow_setterOf f v, Laws.EncodingMatchesTable.command_and_mask v _⟩
  · rw [decode_updateParity]
    exact ⟨_, _, rfl, Laws.EncodingMatchesTable.command_and_mask v _⟩
  · rw [decode_reserved h]
    exact ⟨_, _, rfl, Laws.EncodingMatchesTable.reservedCF sel v (beq_iff_eq.mpr h) _ _ _ rfl rfl⟩

/-- Settles O6: rows of one mask that match the same number have the same match, and no number matches rows of both masks. -/
theorem commandRowsCoverAndDoNotOverlap : Obligations.CommandRowsCoverAndDoNotOverlap := by
  refine ⟨command_matches_tableRow, fun i j hi hj m v m' v' n row row' hn hn' => ?_⟩
  rcases tableRow_of_isInsert hi row with ⟨rfl, lt⟩ | ⟨rfl, rfl⟩ <;>
    rcases tableRow_of_isInsert hj row' with ⟨rfl, lt'⟩ | ⟨rfl, rfl⟩
  · exact ⟨rfl, hn.symm.trans hn'⟩
  · exact absurd hn' (and_0xC_ne_of_and_0xF_lt (hn ▸ lt))
  · exact absurd hn (and_0xC_ne_of_and_0xF_lt (hn' ▸ lt'))
  · exact ⟨rfl, rfl⟩

/-! ### The insert ports -/

/-- `CMD` as a number is `(val << 4) | sel` (30_encoding.md R71). -/
theorem mkCmd_eq_shift_or (v : Val) (sel : Sel) : mkCmd v sel = (v.setWidth 35 <<< 4) ||| sel.setWidth 35 := by
  refine BitVec.eq_of_getLsbD_eq fun i hi => ?_
  simp only [mkCmd, BitVec.getLsbD_append, BitVec.getLsbD_or, BitVec.getLsbD_shiftLeft, BitVec.getLsbD_setWidth, hi,
    decide_true, Bool.true_and]
  by_cases low : i < 4
  · simp [low]
  · simp [low, BitVec.getLsbD_of_ge sel i (by omega), show i - 4 < 35 by omega]

theorem getLsbD_lowBits (n : Nat) (v : Val) (i : Nat) : (lowBits n v).getLsbD i = (decide (i < n) && v.getLsbD i) := by
  simp only [lowBits, BitVec.getLsbD_and, BitVec.getLsbD_ofNat, Nat.testBit_two_pow_sub_one]
  by_cases h : i < 31
  · simp [h, Bool.and_comm]
  · simp [BitVec.getLsbD_of_ge v i (by omega)]

theorem truncField_lowBits (f : Field) (v : Val) : truncField f (lowBits (fieldWidth f) v) = truncField f v := by
  refine BitVec.eq_of_getLsbD_eq fun i _ => ?_
  simp only [getLsbD_truncField, getLsbD_lowBits, ← Bool.and_assoc, Bool.and_self]

theorem setField_lowBits (f : Field) (p : Word) (v : Val) :
    setField f p (lowBits (fieldWidth f) v) = setField f p v := by
  rw [setField, setField, truncField_lowBits]

theorem canonical_setterOf (f : Field) (v : Val) :
    (setterOf f v).canonical = setterOf f (lowBits (fieldWidth f) v) := by
  cases f <;> rfl

theorem valueBits_setterOf (f : Field) (v : Val) : (setterOf f v).valueBits = fieldWidth f := by
  cases f <;> rfl

theorem insertUnit_fieldSel (p : Word) (f : Field) (v : Val) :
    insertUnit p (fieldSel f) v = (setField f p v, false) := by
  cases f <;> rfl

theorem insertUnit_reserved {sel : Sel} (h : sel.extractLsb' 2 2 = 3#2) (p : Word) (v : Val) :
    insertUnit p sel v = (p, true) := by
  rcases reservedSel_cases h with rfl | rfl | rfl | rfl <;> rfl

/-- The canonical form of a command issues the same select and outputs, with the used low bits of the value. -/
theorem exec_canonical_command (c : Cmd) (s : State) :
    exec (decode (.command c)).canonical s =
      issueInsert (cmdSel c) (lowBits (decode (.command c)).valueBits (cmdVal c))
        (insertUnit s.h (cmdSel c) (cmdVal c)).1 (insertUnit s.h (cmdSel c) (cmdVal c)).2 s := by
  rcases command_cases c with ⟨f, v, rfl⟩ | ⟨v, rfl⟩ | ⟨sel, v, h, rfl⟩ <;> rw [cmdSel_mkCmd, cmdVal_mkCmd]
  · rw [decode_setter, canonical_setterOf, valueBits_setterOf, exec_setterOf, setField_lowBits, insertUnit_fieldSel]
  · rw [decode_updateParity]
    rfl
  · rw [decode_reserved h, insertUnit_reserved h]
    rfl

/-- Settles O5: the command and its canonical form each issue one command, with the same select and outputs. -/
theorem commandWordDrivesTheInsertPorts : Obligations.CommandWordDrivesTheInsertPorts := by
  intro c s present
  refine ⟨_, _, (exec_command c s).trans (issueInsert_of_present present ..), rfl, rfl, rfl, ?_,
    (exec_canonical_command c s).trans (issueInsert_of_present present ..), rfl, rfl, rfl, fun i hi => ?_⟩
  · exact (mkCmd_cmdVal_cmdSel c).symm.trans (mkCmd_eq_shift_or _ _)
  · rw [setH_insValI, setInsert_insValI, getLsbD_lowBits, decide_eq_false (by omega), Bool.false_and]

/-! ### The host's steps -/

/-- Settles O8: the step runs the operation taken off the list; a placed table word is taken off again at once. -/
theorem stepRunsTheDecodedInstruction : Obligations.StepRunsTheDecodedInstruction := by
  refine ⟨fun s c rest hprog => step_of_program_cons hprog, fun s nbits w i hi => ?_⟩
  rw [decodeTableWord_eq, Option.map_eq_some_iff] at hi
  obtain ⟨c, hc, rfl⟩ := hi
  have placed : s.withFetchWord nbits w = setProgram (.code c :: s.program) s := by rw [State.withFetchWord, hc]
  rw [placed]
  exact step_of_program_cons (setProgram_program _ _)

/-- Settles O9: with no step to fetch the host is idle. -/
theorem noPendingStepChangesNothing : Obligations.NoPendingStepChangesNothing :=
  fun _ hprog => step_of_program_nil hprog

/-- Settles O10: the step taken off the list loads `H`. -/
theorem loadWordStep : Obligations.LoadWordStep :=
  fun _ _ _ hprog => step_of_program_cons hprog

/-- `DEC` applies `H` to the decoder as a packet row applies its packet. -/
theorem hostDec_of_combinational {s : State} (comb : s.params.outReg = false) :
    hostDec s = .next (applyPacket s.h s) := by
  simp [hostDec, applyPacket, comb]

/-- Settles O12: the step is an application of `H` to the decoder. -/
theorem decStepObservesAllOutputs : Obligations.DecStepObservesAllOutputs := by
  intro s rest hprog comb
  have combRest : (setProgram rest s).params.outReg = false := comb
  rw [step_of_program_cons hprog, runHostStep, hostDec_of_combinational combRest, applyPacket_combinational combRest]
  rfl

/-- Settles O16: each of the two steps asks for its own build first. -/
theorem stepsOfTheOtherBuildAreRefused : Obligations.StepsOfTheOtherBuildAreRefused := by
  intro s v r rest
  refine ⟨fun hprog reg => ?_, fun hprog comb => ?_⟩
  · simp [step_of_program_cons hprog, runHostStep, hostDec, reg]
  · simp [step_of_program_cons hprog, runHostStep, hostClk, comb]

/-! ### What a packet row reports -/

theorem typeOf_eq_extractLsb' (p : Word) : typeOf p = p.extractLsb' 0 2 := setWidth_getField .type p

/-- A packet applied where the outputs can be read is observed whole. -/
theorem applyPacket_obs {s : State} (readable : s.params.outReg = false ∨ s.resetSeen = true) (p : Word) :
    ∃ valid, (applyPacket p s).obs = obsOf valid (decoderOutputs s.params.xorTree p) := by
  cases build : s.params.outReg with
  | false => exact ⟨none, by rw [applyPacket_combinational build]⟩
  | true =>
    have seen : s.resetSeen = true := by simpa [build] using readable
    exact ⟨some true, by rw [applyPacket_registered build]; exact if_pos seen⟩

/-- The type code and the one-hot outputs observed of an applied packet (40_decode.md R102, R103). -/
theorem applyPacket_reports_type {s : State} (readable : s.params.outReg = false ∨ s.resetSeen = true) {p : Word}
    {code : BitVec 2} (hp : p.extractLsb' 0 2 = code) :
    (applyPacket p s).obs.typeO = some code ∧
    (applyPacket p s).obs.isDataO = some (code == 0#2) ∧ (applyPacket p s).obs.isErrorO = some (code == 1#2) ∧
    (applyPacket p s).obs.isWriteO = some (code == 2#2) ∧ (applyPacket p s).obs.isReadO = some (code == 3#2) := by
  obtain ⟨valid, hobs⟩ := applyPacket_obs readable p
  simp only [hobs, obsOf, decoderOutputs, isType, typeOf_eq_extractLsb', hp, and_self]

/-- Settles O31: a packet row applies its packet, and the comparisons with its type code are computed. -/
theorem packetRowReportsItsKind : Obligations.PacketRowReportsItsKind := by
  intro s p readable
  exact ⟨fun h => ⟨_, exec_pktData s p, applyPacket_reports_type readable h⟩,
    fun h => ⟨_, exec_pktError s p, applyPacket_reports_type readable h⟩,
    fun h => ⟨_, exec_pktWrite s p, applyPacket_reports_type readable h⟩,
    fun h => ⟨_, exec_pktRead s p, applyPacket_reports_type readable h⟩⟩

/-! ### Runs of insert commands -/

/-- A pending insert command is one step that leaves the unit's output in `H`. -/
theorem step_command {s : State} {c : Cmd} {rest : List HostStep} (present : s.params.hasInsert = true)
    (hprog : s.program = .code (.command c) :: rest) :
    ∃ t, step s = .next t ∧ t.h = (insertUnit s.h (cmdSel c) (cmdVal c)).1 ∧ t.program = rest ∧ t.params = s.params := by
  have presentRest : (setProgram rest s).params.hasInsert = true := present
  have run := (exec_command c (setProgram rest s)).trans (issueInsert_of_present presentRest ..)
  exact ⟨_, (step_of_program_cons hprog).trans run, rfl, rfl, rfl⟩

/-- Pending insert commands run through, and leave in `H` what the cascaded units give (70_reset_and_hazards.md R234). -/
theorem run_commands (cmds : List Cmd) {s : State} {rest : List HostStep} (present : s.params.hasInsert = true)
    (hprog : s.program = cmds.map (fun c => .code (.command c)) ++ rest) :
    ∃ t, Host.Core.run Sys2Proof.core cmds.length s = .next t ∧ t.h = cascade cmds s.h ∧ t.program = rest := by
  induction cmds generalizing s with
  | nil => exact ⟨s, rfl, rfl, hprog⟩
  | cons c cmds ih =>
    obtain ⟨u, hstep, hu, hprogu, hparams⟩ := step_command present hprog
    obtain ⟨t, hrun, ht, hprogt⟩ := ih (hparams ▸ present) hprogu
    exact ⟨t, (core_run_succ hstep).trans hrun, by rw [ht, hu]; rfl, hprogt⟩

/-! ### The word a `BUILD` makes -/

/-- The fields written into a word one after the other. -/
def setFields (fvs : List (Field × Val)) (p : Word) : Word := fvs.foldl (fun q fv => setField fv.1 q fv.2) p

/-- The insert commands of a `BUILD`: the setters in the order written, then `UPDATE_PARITY` (30_encoding.md R81). -/
def buildCommands (fvs : List (Field × Val)) : List Cmd :=
  fvs.map (fun fv => mkCmd fv.2 (fieldSel fv.1)) ++ [mkCmd 0 0xB]

theorem pseudoBuild_eq (fvs : List (Field × Val)) :
    pseudoBuild fvs = .ldw 0 :: (buildCommands fvs).map (fun c => .code (.command c)) := by
  simp [pseudoBuild, pseudoClr, pseudoFix, buildCommands, insSet]

theorem cascade_buildCommands (fvs : List (Field × Val)) (p : Word) :
    cascade (buildCommands fvs) p = updateParityWord (setFields fvs p) := by
  simp only [cascade, buildCommands, setFields, List.foldl_append, List.foldl_map, cmdSel_mkCmd, cmdVal_mkCmd,
    insertUnit_fieldSel]
  rfl

/-- A `BUILD` runs through, from any state that has the insert unit, and its word depends on the fields listed alone. -/
theorem run_pseudoBuild (fvs : List (Field × Val)) {s : State} {rest : List HostStep} (present : s.params.hasInsert = true)
    (hprog : s.program = pseudoBuild fvs ++ rest) :
    ∃ t, Host.Core.run Sys2Proof.core (fvs.length + 2) s = .next t ∧ t.program = rest ∧
      t.h = updateParityWord (setFields fvs 0) := by
  rw [pseudoBuild_eq] at hprog
  obtain ⟨u, hclr, hu, hprogu, presentu⟩ : ∃ u, step s = .next u ∧ u.h = 0 ∧
      u.program = (buildCommands fvs).map (fun c => .code (.command c)) ++ rest ∧ u.params.hasInsert = true :=
    ⟨_, step_of_program_cons hprog, rfl, rfl, present⟩
  obtain ⟨t, hrun, ht, hprogt⟩ := run_commands (buildCommands fvs) presentu hprogu
  have count : (buildCommands fvs).length = fvs.length + 1 := by simp [buildCommands]
  rw [count] at hrun
  exact ⟨t, (core_run_succ hclr).trans hrun, hprogt, by rw [ht, hu, cascade_buildCommands]⟩

/-- Each field holds the last value written to it, else what it held before. -/
theorem getField_setFields (fvs : List (Field × Val)) (f : Field) :
    getField f (setFields fvs 0) = truncField f ((fvs.reverse.lookup f).getD 0) := by
  induction fvs using List.reverseRecOn with
  | nil => exact (getField_zero f).trans (truncField_zero f).symm
  | append_singleton fvs fv ih =>
    obtain ⟨g, v⟩ := fv
    have last : setFields (fvs ++ [(g, v)]) 0 = setField g (setFields fvs 0) v := by simp [setFields]
    rw [last, List.reverse_append, List.reverse_singleton, List.singleton_append, List.lookup_cons]
    by_cases h : g = f
    · subst h
      simp [getField_setField_same]
    · rw [getField_setField_of_ne h, ih, beq_false_of_ne (Ne.symm h)]

/-- Fields listed once each may be written in any order. -/
theorem setFields_perm {fvs fvs' : List (Field × Val)} (once : (fvs.map Prod.fst).Nodup) (perm : fvs.Perm fvs') (p : Word) :
    setFields fvs p = setFields fvs' p := by
  refine perm.foldl_eq' (fun x hx y hy q => ?_) p
  by_cases h : x = y
  · rw [h]
  · exact setField_comm (fun e => h (List.inj_on_of_nodup_map once hx hy e)) q x.2 y.2

/-! ### The repaired word -/

/-- The XOR of a word is the XOR of the bits below its top one, and that bit. -/
theorem xorReduce_succ {n : Nat} (v : BitVec (n + 1)) :
    xorReduce v = (xorReduce (v.extractLsb' 0 n) ^^ v.getLsbD n) := by
  have below : ∀ i ∈ List.range n, (v.extractLsb' 0 n).getLsbD i = v.getLsbD i := fun i hi => by
    simp [List.mem_range.mp hi]
  rw [xorReduce, xorReduce, List.range_succ, List.foldl_append]
  simp only [List.foldl_cons, List.foldl_nil]
  congr 1
  exact (List.foldl_ext _ _ _ fun a i hi => by rw [below i hi]).symm

/-- The updated word in the form `(~xor_reduce(p[62:0]), p[62:0])` (41_parity.md R141). -/
theorem updateParityWord_eq (p : Word) : updateParityWord p = BitVec.ofBool (!xorReduce (covered p)) ++ covered p := by
  rw [updateParityWord, ofNat_one_sub_popcount]

theorem covered_updateParityWord (p : Word) : covered (updateParityWord p) = covered p :=
  BitVec.extractLsb'_append_eq_right

/-- The updated word is valid (41_parity.md R132, R142). -/
theorem xorReduce_updateParityWord (p : Word) : xorReduce (updateParityWord p) = true := by
  have low : (updateParityWord p).extractLsb' 0 63 = covered p := covered_updateParityWord p
  have top : (updateParityWord p).getLsbD 63 = !xorReduce (covered p) := by
    rw [updateParityWord_eq, BitVec.getLsbD_append]
    simp
  rw [xorReduce_succ, low, top]
  simp

theorem getLsbD_covered (p : Word) {i : Nat} (h : i < 63) : (covered p).getLsbD i = p.getLsbD i := by
  simp [covered, h]

/-- The update changes no field but the parity bit. -/
theorem getField_updateParityWord {f : Field} (h : f ≠ .parityBit) (p : Word) :
    getField f (updateParityWord p) = getField f p := by
  have below : fieldLo f + fieldWidth f ≤ 63 := fields_disjoint h |>.resolve_right (by cases f <;> decide)
  refine BitVec.eq_of_getLsbD_eq fun i _ => ?_
  rw [getLsbD_getField, getLsbD_getField]
  by_cases hi : i < fieldWidth f
  · rw [← getLsbD_covered _ (show fieldLo f + i < 63 by omega), covered_updateParityWord, getLsbD_covered _ (by omega)]
  · simp [hi]

/-- Settles O45: a `BUILD` leaves in `H` the parity-updated word of the fields listed, written into 0. -/
theorem buildGivesAValidPacketInAnyOrder : Obligations.BuildGivesAValidPacketInAnyOrder := by
  intro fvs s rest present hprog
  obtain ⟨t, hrun, hrest, ht⟩ := run_pseudoBuild fvs present hprog
  refine ⟨t, hrun, hrest, ?_, fun f notParity => ?_, fun fvs' s' rest' once perm present' hprog' => ?_⟩
  · rw [ht, xorReduce_updateParityWord]
  · rw [ht, getField_updateParityWord notParity]
    exact getField_setFields fvs f
  · obtain ⟨t', hrun', hrest', ht'⟩ := run_pseudoBuild fvs' present' hprog'
    exact ⟨t', hrun', hrest', by rw [ht', ht, setFields_perm once perm]⟩

end Sys2Proof.Machine

/-! PROOFS. The statements of 40_decode.md: what the getters and the type decode give, and getters against setters. -/

namespace Sys2Proof.Machine

/-! ### The getters -/

theorem channelOf_eq_extractLsb' (p : Word) : channelOf p = p.extractLsb' 10 6 := setWidth_getField .channel p

theorem firstOf_eq_extractLsb' (p : Word) : firstOf p = p.extractLsb' 47 1 := setWidth_getField .first p

theorem dataOf_eq_extractLsb' (p : Word) : dataOf p = p.extractLsb' 48 8 := setWidth_getField .data p

theorem trigTypeOf_eq_extractLsb' (p : Word) : trigTypeOf p = p.extractLsb' 56 2 := setWidth_getField .trigType p

theorem localFifoOf_eq_extractLsb' (p : Word) : localFifoOf p = p.extractLsb' 58 2 := setWidth_getField .localFifo p

theorem sharedFifoOf_eq_extractLsb' (p : Word) : sharedFifoOf p = p.extractLsb' 60 2 := setWidth_getField .sharedFifo p

theorem downstreamOf_eq_extractLsb' (p : Word) : downstreamOf p = p.extractLsb' 62 1 := setWidth_getField .downstream p

theorem parityBitOf_eq_extractLsb' (p : Word) : parityBitOf p = p.extractLsb' 63 1 := setWidth_getField .parityBit p

/-- Settles O19: each getter is a read of its port where `p` is shown, and the port holds the field's bits. -/
theorem gettersGiveTheirFieldsBits : Obligations.GettersGiveTheirFieldsBits := by
  intro s p shown
  have completes := readPort_of_shows shown
  rw [← typeOf_eq_extractLsb', ← chipOf_eq_extractLsb', ← channelOf_eq_extractLsb', ← timestampOf_eq_extractLsb',
    ← firstOf_eq_extractLsb', ← dataOf_eq_extractLsb', ← trigTypeOf_eq_extractLsb', ← localFifoOf_eq_extractLsb',
    ← sharedFifoOf_eq_extractLsb', ← downstreamOf_eq_extractLsb', ← parityBitOf_eq_extractLsb']
  exact ⟨(exec_getType s).trans (completes _), (exec_getChip s).trans (completes _),
    (exec_getChannel s).trans (completes _), (exec_getTimestamp s).trans (completes _),
    (exec_getFirst s).trans (completes _), (exec_getData s).trans (completes _),
    (exec_getTrigType s).trans (completes _), (exec_getLocalFifo s).trans (completes _),
    (exec_getSharedFifo s).trans (completes _), (exec_getDownstream s).trans (completes _),
    (exec_getParityBit s).trans (completes _)⟩

/-! ### The type decode -/

theorem isType_eq_decide (code : BitVec 2) (p : Word) : isType code p = decide (p.extractLsb' 0 2 = code) := by
  rw [isType, typeOf_eq_extractLsb']
  rfl

/-- Settles O20: the four ports are read where `p` is shown, and each of the four type codes equals one code only. -/
theorem typeDecodeIsOneHot : Obligations.TypeDecodeIsOneHot := by
  intro s p shown
  constructor
  · rw [exec_typeDecode, readPort_of_shows shown]
    simp only [isType_eq_decide]
    rfl
  · rcases typeCode_cases p with h | h | h | h <;> (rw [h]; decide)

/-! ### Getters and setters -/

theorem fieldWidth_le (f : Field) : fieldWidth f ≤ 31 := by
  cases f <;> decide

/-- A value that fits its field is not truncated (42_insert.md R151). -/
theorem truncField_of_lt {f : Field} {v : Val} (fits : v.toNat < 2 ^ fieldWidth f) :
    truncField f v = v.setWidth 64 := by
  refine BitVec.eq_of_toNat_eq ?_
  rw [truncField, BitVec.toNat_setWidth, BitVec.toNat_setWidth, Nat.mod_eq_of_lt fits, BitVec.toNat_setWidth]

/-- Writing back what a field holds changes nothing (40_decode.md R114). -/
theorem setField_getField (f : Field) (p : Word) : setField f p ((getField f p).setWidth 31) = p := by
  have width := fieldWidth_le f
  refine BitVec.eq_of_getLsbD_eq fun i hi => ?_
  rw [getLsbD_setField f p _ i hi]
  split_ifs with inside
  · rw [BitVec.getLsbD_setWidth, getLsbD_getField, Nat.add_sub_cancel' inside.1]
    simp [show i - fieldLo f < 31 by omega, show i - fieldLo f < fieldWidth f by omega]
  · rfl

/-- Settles O37: a setter leaves `setField` of its field in `H`: each clause is a law of `getField` and `setField`. -/
theorem gettersAndSettersAreInverse : Obligations.GettersAndSettersAreInverse := by
  intro f s present
  refine ⟨fun v fits => ?_, ?_, fun v g other => ?_⟩
  · obtain ⟨t, run, word, -⟩ := exec_setterOf_next present f v
    exact ⟨t, run, by rw [word, getField_setField_same, truncField_of_lt fits]⟩
  · obtain ⟨t, run, word, -⟩ := exec_setterOf_next present f ((getField f s.h).setWidth 31)
    exact ⟨t, run, by rw [word, setField_getField]⟩
  · obtain ⟨t, run, word, -⟩ := exec_setterOf_next present f v
    exact ⟨t, run, by rw [word, getField_setField_of_ne other.symm]⟩

end Sys2Proof.Machine

/-! PROOFS. The statements of 41_parity.md: the parity generator, the validator and the two updaters, for every legal parity
tree. -/

namespace Sys2Proof.Machine

/-! ### The XOR of a word -/

/-- `xor_reduce` is linear: a flipped bit counts as the XOR of what is flipped (41_parity.md R134). -/
theorem xorReduce_xor {n : Nat} (x y : BitVec n) : xorReduce (x ^^^ y) = (xorReduce x ^^ xorReduce y) := by
  induction n with
  | zero => rfl
  | succ n ih =>
    rw [xorReduce_succ, xorReduce_succ x, xorReduce_succ y, BitVec.extractLsb'_xor, ih, BitVec.getLsbD_xor]
    simp only [Bool.xor_assoc, Bool.xor_left_comm]

theorem popcount_twoPow {n i : Nat} (h : i < n) : popcount (BitVec.twoPow n i) = 1 := by
  have bits : ∀ j, (BitVec.twoPow n i).getLsbD j = (j == i) := fun j => by
    rw [BitVec.getLsbD_twoPow, decide_eq_true h, Bool.true_and, ← beq_eq_decide, BEq.comm]
  simp only [popcount, bits]
  exact List.count_eq_one_of_mem List.nodup_range (List.mem_range.mpr h)

theorem xorReduce_twoPow {n i : Nat} (h : i < n) : xorReduce (BitVec.twoPow n i) = true := by
  rw [xorReduce_eq_popcount, popcount_twoPow h]
  rfl

theorem xorReduce_eq_false_iff {n : Nat} (v : BitVec n) : xorReduce v = false ↔ popcount v % 2 = 0 := by
  rw [xorReduce_eq_popcount, decide_eq_false_iff_not]
  omega

/-! ### Bit 63 -/

theorem parityBit_eq_ofBool (p : Word) : p.extractLsb' 63 1 = BitVec.ofBool (p.getLsbD 63) := by
  refine BitVec.eq_of_getLsbD_eq fun i hi => ?_
  obtain rfl : i = 0 := by omega
  simp

/-- A word is determined by its covered bits and its validity. -/
theorem eq_of_covered_of_xorReduce {p q : Word} (low : covered p = covered q) (valid : xorReduce p = xorReduce q) :
    p = q := by
  have top : p.getLsbD 63 = q.getLsbD 63 := by
    rw [xorReduce_succ p, xorReduce_succ q] at valid
    rw [covered, covered] at low
    rwa [low, Bool.xor_right_inj] at valid
  refine BitVec.eq_of_getLsbD_eq fun i hi => ?_
  rcases Nat.lt_succ_iff_lt_or_eq.mp hi with below | rfl
  · rw [← getLsbD_covered p below, low, getLsbD_covered q below]
  · exact top

theorem covered_flip63 (p : Word) : covered (p ^^^ 0x8000000000000000#64) = covered p := by
  have untouched : (0x8000000000000000#64).extractLsb' 0 63 = 0#63 := by decide
  rw [covered, BitVec.extractLsb'_xor, untouched, BitVec.xor_zero, covered]

theorem xorReduce_flip63 (p : Word) : xorReduce (p ^^^ 0x8000000000000000#64) = !xorReduce p := by
  have single : xorReduce 0x8000000000000000#64 = true := xorReduce_twoPow (n := 64) (i := 63) (by decide)
  rw [xorReduce_xor, single, Bool.xor_true]

/-! ### The updated word -/

theorem updateParityWord_of_valid {p : Word} (valid : xorReduce p = true) : updateParityWord p = p :=
  eq_of_covered_of_xorReduce (covered_updateParityWord p) ((xorReduce_updateParityWord p).trans valid.symm)

theorem updateParityWord_of_invalid {p : Word} (invalid : xorReduce p = false) :
    updateParityWord p = p ^^^ 0x8000000000000000#64 := by
  refine eq_of_covered_of_xorReduce ?_ ?_
  · rw [covered_updateParityWord, covered_flip63]
  · rw [xorReduce_updateParityWord, xorReduce_flip63, invalid, Bool.not_false]

theorem updateParityWord_idem (p : Word) : updateParityWord (updateParityWord p) = updateParityWord p :=
  updateParityWord_of_valid (xorReduce_updateParityWord p)

/-! ### Every legal tree -/

section legal
variable {t : XorTree} (legal : treeLegal t = true) (p : Word)
include legal

/-- A legal tree's output is the XOR of the covered bits, whatever its shape (41_parity.md R136). -/
theorem treeXor_of_legal : treeXor t p = xorReduce (covered p) := by
  have inputs : popcount (covered p) = (List.range 63).countP (p.getLsbD ·) :=
    List.countP_congr fun i hi => by rw [getLsbD_covered p (List.mem_range.mp hi)]
  rw [treeXor_eq_countP, countP_treeInputs legal, xorReduce_eq_popcount, inputs]

/-- `parity_gen_o = ~xor_reduce(p[62:0])` (41_parity.md R131). -/
theorem parityGen_of_legal : parityGen t p = BitVec.ofBool (!xorReduce (covered p)) := by
  rw [parityGen, treeXor_of_legal legal, BitVec.not_ofBool]

/-- `parity_ok_o = xor_reduce(p[63:0])` (41_parity.md R132). -/
theorem parityOk_of_legal : parityOk t p = xorReduce p := by
  rw [parityOk, treeXor_of_legal legal, xorReduce_succ p, covered]

/-- The decoder's updater and the insert unit's compute one function (41_parity.md R140, R141). -/
theorem pktFixed_of_legal : pktFixed t p = updateParityWord p := by
  rw [pktFixed, parityOk_of_legal legal]
  cases h : xorReduce p with
  | true => exact (updateParityWord_of_valid h).symm
  | false => exact (updateParityWord_of_invalid h).symm

end legal

/-- Settles O47: a legal tree computes the XOR of the covered bits, and the default tree is computed out. -/
theorem everyParityTreeComputesTheXor : Obligations.EveryParityTreeComputesTheXor := by
  refine ⟨fun t p legal => ⟨?_, ?_, ?_⟩, rfl, by decide, by decide, by decide, fun k i => rfl, fun p => ⟨?_, rfl, ?_⟩⟩
  · exact treeXor_of_legal legal p
  · rw [parityGen_of_legal legal, BitVec.not_ofBool, covered]
  · rw [parityOk_of_legal legal, xorReduce_succ]
  · intro i below
    rw [balanced, if_pos below, treeXor]
  · intro k i
    rw [balanced, treeXor_gate2]

/-! ### The generator and the validator -/

/-- Settles O21: the port is read where `p` is shown, and both forms are the negated XOR. -/
theorem genParityGivesTheMissingParityBit : Obligations.GenParityGivesTheMissingParityBit := by
  intro s p legal shown
  rw [ofNat_one_sub_popcount, BitVec.not_ofBool]
  refine ⟨?_, rfl⟩
  rw [exec_genParity, readPort_of_shows shown, parityGen_of_legal legal]
  rfl

/-- The stored bit equals the missing parity bit exactly where the word is valid (41_parity.md R132). -/
theorem decide_parityBit_eq (p : Word) :
    decide (BitVec.ofBool (!xorReduce (covered p)) = p.extractLsb' 63 1) = xorReduce p := by
  rw [parityBit_eq_ofBool, xorReduce_succ p, covered]
  cases xorReduce (p.extractLsb' 0 63) <;> cases p.getLsbD 63 <;> rfl

/-- Settles O22: the port is read where `p` is shown, and the three forms are one. -/
theorem validParityComparesTheParityBit : Obligations.ValidParityComparesTheParityBit := by
  intro s p legal shown
  have compare : decide (BitVec.ofNat 1 (1 - popcount (p.extractLsb' 0 63) % 2) = p.extractLsb' 63 1) = xorReduce p := by
    rw [ofNat_one_sub_popcount]
    exact decide_parityBit_eq p
  rw [compare, parityGen_of_legal legal, decide_parityBit_eq, exec_validParity, readPort_of_shows shown,
    parityOk_of_legal legal]
  exact ⟨rfl, rfl, rfl⟩

/-- Settles O48: the bit read is `xor_reduce(p)`, the popcount modulo 2. -/
theorem validPacketsHaveOddPopcount : Obligations.ValidPacketsHaveOddPopcount := by
  intro s p legal shown
  refine ⟨_, (exec_validParity s).trans (readPort_of_shows shown _), ?_⟩
  rw [setObs_obs, parityOk_of_legal legal, Option.some_inj, Option.some_inj, xorReduce_eq_false_iff,
    xorReduce_eq_popcount, decide_eq_true_iff]
  exact ⟨Iff.rfl, Iff.rfl⟩

/-- Settles O49: validity is linear in the word, and a flip of an odd number of bits has XOR 1. -/
theorem singleBitFlipTogglesValidity : Obligations.SingleBitFlipTogglesValidity := by
  intro t p legal
  simp only [parityOk_of_legal legal, xorReduce_xor]
  refine ⟨fun i hi => ?_, fun d even => ?_⟩
  · have single : xorReduce ((1 : Word) <<< i) = true := xorReduce_twoPow hi
    rw [single, Bool.xor_true]
  · rw [(xorReduce_eq_false_iff d).mpr even, Bool.xor_false]

/-- Settles O50: the four packets are computed out. -/
theorem boundaryPacketsParity : Obligations.BoundaryPacketsParity := by
  unfold Obligations.BoundaryPacketsParity
  decide

/-! ### The updaters -/

/-- Settles O23: the port is read where `p` is shown, and the updated word is the insert unit's form of it. -/
theorem updateParityDecRepairsBit63 : Obligations.UpdateParityDecRepairsBit63 := by
  intro s p legal shown
  refine ⟨(exec_updateParityDec s).trans (readPort_of_shows shown _), ?_⟩
  calc pktFixed s.params.xorTree p
      = BitVec.ofBool (!xorReduce (covered p)) ++ covered p := by rw [pktFixed_of_legal legal, updateParityWord_eq]
    _ = parityGen s.params.xorTree p ++ p.extractLsb' 0 63 := by rw [parityGen_of_legal legal, covered]

theorem exec_updateParity_of_present {s : State} (present : s.params.hasInsert = true) (v : Val) :
    exec (.updateParity v) s =
      .next (setH (updateParityWord s.h) (setInsert s.h 0xB v (updateParityWord s.h) false s)) :=
  (exec_updateParity s v).trans (issueInsert_of_present present ..)

/-- Settles O41: the command issues the updated word, which is `pkt_fixed_o` for every legal tree. -/
theorem updateParityCommand : Obligations.UpdateParityCommand := by
  intro s v w present hw
  obtain rfl : w = updateParityWord s.h := hw.trans (updateParityWord_eq s.h).symm
  exact ⟨exec_updateParity_of_present present v, fun t legal => (pktFixed_of_legal legal s.h).symm⟩

/-- Settles O43: both forms give the updated word, which is valid, keeps the covered bits and is its own update. -/
theorem updateParityRepairsOnlyBit63 : Obligations.UpdateParityRepairsOnlyBit63 := by
  intro s v p legal present shown
  simp only [parityOk_of_legal legal, pktFixed_of_legal legal]
  constructor
  · have presentAfter : (setH (updateParityWord s.h)
        (setInsert s.h 0xB v (updateParityWord s.h) false s)).params.hasInsert = true := present
    have fixed := pktFixed_of_legal legal s.h
    rw [pktFixed, parityOk_of_legal legal] at fixed
    exact ⟨_, _, exec_updateParity_of_present present v, exec_updateParity_of_present presentAfter v,
      xorReduce_updateParityWord s.h, covered_updateParityWord s.h, updateParityWord_idem s.h, fixed.symm⟩
  · exact ⟨_, _, (exec_updateParityDec s).trans (readPort_of_shows shown _),
      congrArg some (pktFixed_of_legal legal p), xorReduce_updateParityWord p, covered_updateParityWord p,
      updateParityWord_idem p, updateParityWord_of_invalid⟩

end Sys2Proof.Machine

/-! PROOFS. The statements of 42_insert.md: what each setter writes, its value's width, its effect on parity, the reserved
commands, and the build without the insert unit. -/

namespace Sys2Proof.Machine

/-! ### The word a setter makes -/

/-- A setter's word part by part: the bits above the field, the value's low bits, the bits below (42_insert.md R153 to
R163). -/
theorem setField_eq_append (f : Field) (p : Word) (v : Val) {above : Nat}
    (parts : above + fieldWidth f + fieldLo f = 64) :
    setField f p v = (p.extractLsb' (fieldLo f + fieldWidth f) above ++ v.extractLsb' 0 (fieldWidth f) ++
      p.extractLsb' 0 (fieldLo f)).cast parts := by
  refine BitVec.eq_of_getLsbD_eq fun i hi => ?_
  rw [getLsbD_setField f p v i hi, BitVec.getLsbD_cast, BitVec.getLsbD_append, BitVec.getLsbD_append]
  simp only [BitVec.getLsbD_extractLsb']
  by_cases below : i < fieldLo f
  · rw [if_neg (by omega), if_pos below, decide_eq_true below, Bool.true_and, Nat.zero_add]
  by_cases inside : i - fieldLo f < fieldWidth f
  · rw [if_pos (by omega), if_neg below, if_pos inside, decide_eq_true inside, Bool.true_and, Nat.zero_add]
  · rw [if_neg (by omega), if_neg below, if_neg inside, decide_eq_true (by omega), Bool.true_and]
    congr 1
    omega

theorem setField_type_eq (p : Word) (v : Val) :
    setField .type p v = p.extractLsb' 2 62 ++ v.extractLsb' 0 2 :=
  (setField_eq_append .type p v (above := 62) rfl).trans (BitVec.append_zero_width _ _)

theorem setField_timestamp_eq (p : Word) (v : Val) :
    setField .timestamp p v = p.extractLsb' 47 17 ++ v ++ p.extractLsb' 0 16 :=
  calc setField .timestamp p v
      = p.extractLsb' 47 17 ++ v.extractLsb' 0 31 ++ p.extractLsb' 0 16 :=
        setField_eq_append .timestamp p v (above := 17) rfl
    _ = p.extractLsb' 47 17 ++ v ++ p.extractLsb' 0 16 := by rw [BitVec.extractLsb'_eq_self]

theorem setField_parityBit_eq (p : Word) (v : Val) :
    setField .parityBit p v = v.extractLsb' 0 1 ++ p.extractLsb' 0 63 :=
  calc setField .parityBit p v
      = p.extractLsb' 64 0 ++ v.extractLsb' 0 1 ++ p.extractLsb' 0 63 :=
        setField_eq_append .parityBit p v (above := 0) rfl
    _ = v.extractLsb' 0 1 ++ p.extractLsb' 0 63 := by rw [BitVec.zero_width_append]; rfl

theorem exec_setterOf_of_present {s : State} (present : s.params.hasInsert = true) (f : Field) (v : Val) :
    exec (setterOf f v) s = .next (setH (setField f s.h v) (setInsert s.h (fieldSel f) v (setField f s.h v) false s)) :=
  (exec_setterOf f v s).trans (issueInsert_of_present present ..)

/-- The whole next state of a setter whose word is `w`: `H` and the insert ports. -/
theorem exec_setterOf_word {s : State} {f : Field} {v : Val} {w w' : Word} (present : s.params.hasInsert = true)
    (hw : w = w') (word : setField f s.h v = w') :
    exec (setterOf f v) s = .next { s with
      insPktI := s.h, insSelI := fieldSel f, insValI := v, insPktO := w, insIllegalO := false, h := w } :=
  hw.trans word.symm ▸ exec_setterOf_of_present present f v

/-- Settles O34: each setter completes with `setField` of its field in `H`, which is the concatenation of its rule. -/
theorem settersWriteTheirFields : Obligations.SettersWriteTheirFields := by
  intro s v present
  exact ⟨fun _ hw => exec_setterOf_word present hw (setField_type_eq s.h v),
    fun _ hw => exec_setterOf_word present hw (setField_eq_append .chip s.h v (above := 54) rfl),
    fun _ hw => exec_setterOf_word present hw (setField_eq_append .channel s.h v (above := 48) rfl),
    fun _ hw => exec_setterOf_word present hw (setField_timestamp_eq s.h v),
    fun _ hw => exec_setterOf_word present hw (setField_eq_append .first s.h v (above := 16) rfl),
    fun _ hw => exec_setterOf_word present hw (setField_eq_append .data s.h v (above := 8) rfl),
    fun _ hw => exec_setterOf_word present hw (setField_eq_append .trigType s.h v (above := 6) rfl),
    fun _ hw => exec_setterOf_word present hw (setField_eq_append .localFifo s.h v (above := 4) rfl),
    fun _ hw => exec_setterOf_word present hw (setField_eq_append .sharedFifo s.h v (above := 2) rfl),
    fun _ hw => exec_setterOf_word present hw (setField_eq_append .downstream s.h v (above := 1) rfl),
    fun _ hw => exec_setterOf_word present hw (setField_parityBit_eq s.h v)⟩

/-- Settles O35: the word is `setField` of the field, in its general form and bit by bit. -/
theorem setterWritesExactlyItsFieldsBits : Obligations.SetterWritesExactlyItsFieldsBits := by
  intro f v s present
  exact ⟨_, exec_setterOf_of_present present f v, rfl, rfl, rfl, getLsbD_setField f s.h v⟩

/-! ### The value's width -/

theorem ofNat_mod_eq_lowBits (n : Nat) (v : Val) : BitVec.ofNat 31 (v.toNat % 2 ^ n) = lowBits n v := by
  refine BitVec.eq_of_getLsbD_eq fun i hi => ?_
  rw [getLsbD_lowBits, BitVec.getLsbD_ofNat, Nat.testBit_mod_two_pow, decide_eq_true hi, Bool.true_and, BitVec.testBit_toNat]

/-- Settles O36: the reduced value writes the same word, and a setter leaves every other field. -/
theorem setterTakesItsValueModuloTheWidth : Obligations.SetterTakesItsValueModuloTheWidth := by
  intro f v s present
  have sameWord := setField_lowBits f s.h v
  rw [← ofNat_mod_eq_lowBits] at sameWord
  exact ⟨_, _, exec_setterOf_of_present present f v, exec_setterOf_of_present present f _, sameWord.symm, rfl,
    sameWord.symm, fun g other => getField_setField_of_ne other.symm s.h v⟩

/-! ### Parity after a setter -/

theorem popcount_split {w n : Nat} (hn : n ≤ w) (x : BitVec w) :
    popcount x = (List.range n).countP (x.getLsbD ·) + (List.range (w - n)).countP (fun i => x.getLsbD (n + i)) := by
  have parts : List.range w = List.range n ++ (List.range (w - n)).map (n + ·) := by
    rw [← List.range_add, Nat.add_sub_cancel' hn]
  rw [popcount, parts, List.countP_append, List.countP_map]
  rfl

/-- A shift that loses no 1 bit keeps the population count. -/
theorem popcount_shiftLeft {w n : Nat} (hn : n ≤ w) {x : BitVec w} (top : ∀ i, w - n ≤ i → x.getLsbD i = false) :
    popcount (x <<< n) = popcount x := by
  have low : (List.range n).countP ((x <<< n).getLsbD ·) = 0 :=
    List.countP_eq_zero.mpr fun i hi => by simp [List.mem_range.mp hi]
  have high : (List.range (w - (w - n))).countP (fun i => x.getLsbD (w - n + i)) = 0 :=
    List.countP_eq_zero.mpr fun i _ => by simp [top]
  have moved : (List.range (w - n)).countP (fun i => (x <<< n).getLsbD (n + i)) =
      (List.range (w - n)).countP (x.getLsbD ·) :=
    List.countP_congr fun i hi => by
      have below := List.mem_range.mp hi
      simp only [BitVec.getLsbD_shiftLeft, show n + i < w by omega, show ¬ n + i < n by omega, Nat.add_sub_cancel_left,
        decide_true, decide_false, Bool.not_false, Bool.true_and]
  rw [popcount_split hn, low, moved, popcount_split (Nat.sub_le w n) x, high, Nat.zero_add, Nat.add_zero]

/-- The bits of a field that a setter flips: those in which the value differs from what the field held. -/
def flippedBits (f : Field) (p : Word) (v : Val) : Word := getField f p ^^^ truncField f v

theorem getLsbD_flippedBits (f : Field) (p : Word) (v : Val) (i : Nat) :
    (flippedBits f p v).getLsbD i = (decide (i < fieldWidth f) && (p.getLsbD (fieldLo f + i) ^^ v.getLsbD i)) := by
  rw [flippedBits, BitVec.getLsbD_xor, getLsbD_getField, getLsbD_truncField, Bool.and_xor_distrib_left]

theorem setField_eq_xor (f : Field) (p : Word) (v : Val) :
    setField f p v = p ^^^ (flippedBits f p v <<< fieldLo f) := by
  refine BitVec.eq_of_getLsbD_eq fun i hi => ?_
  rw [getLsbD_setField f p v i hi, BitVec.getLsbD_xor, BitVec.getLsbD_shiftLeft, getLsbD_flippedBits]
  split_ifs with inside
  · obtain ⟨lo, hi'⟩ := inside
    simp [hi, show ¬ i < fieldLo f by omega, show i - fieldLo f < fieldWidth f by omega, Nat.add_sub_cancel' lo]
  · by_cases below : i < fieldLo f
    · simp [below]
    · simp [show ¬ i - fieldLo f < fieldWidth f by omega]

/-- A setter flips the parity of the word exactly when it flips an odd number of bits (42_insert.md R152). -/
theorem xorReduce_setField (f : Field) (p : Word) (v : Val) :
    xorReduce (setField f p v) = (xorReduce p ^^ decide (popcount (flippedBits f p v) % 2 = 1)) := by
  have fits := fieldLo_add_fieldWidth_le f
  have top : ∀ i, 64 - fieldLo f ≤ i → (flippedBits f p v).getLsbD i = false := fun i hi => by
    rw [getLsbD_flippedBits, decide_eq_false (by omega), Bool.false_and]
  rw [setField_eq_xor, xorReduce_xor, xorReduce_eq_popcount (_ <<< _), popcount_shiftLeft (by omega) top]

theorem getLsbD_63_setField {f : Field} (h : f ≠ .parityBit) (p : Word) (v : Val) :
    (setField f p v).getLsbD 63 = p.getLsbD 63 := by
  have apart : fieldLo f + fieldWidth f ≤ 63 ∨ 63 + 1 ≤ fieldLo f := fields_disjoint h
  rw [getLsbD_setField f p v 63 (by decide), if_neg (by omega)]

/-- Settles O39: for a legal tree validity is the XOR of the word, and the setter flips it by the bits it flips. -/
theorem settersDoNotUpdateParity : Obligations.SettersDoNotUpdateParity := by
  intro f v s present legal
  refine ⟨_, exec_setterOf_of_present present f v, fun notParity => ⟨getLsbD_63_setField notParity s.h v, ?_⟩⟩
  rw [parityOk_of_legal legal, parityOk_of_legal legal]
  exact xorReduce_setField f s.h v

/-- The word with its stored bit replaced is valid exactly when that bit is the missing parity bit (42_insert.md R163). -/
theorem xorReduce_setField_parityBit (p : Word) (v : Val) :
    xorReduce (setField .parityBit p v) = true ↔ v.getLsbD 0 = !xorReduce (covered p) := by
  have low : (setField .parityBit p v).extractLsb' 0 63 = covered p := by
    rw [setField_parityBit_eq]
    exact BitVec.extractLsb'_append_eq_right
  have top : (setField .parityBit p v).getLsbD 63 = v.getLsbD 0 := getLsbD_setField .parityBit p v 63 (by decide)
  rw [xorReduce_succ, low, top]
  cases xorReduce (covered p) <;> simp

/-- Settles O40: the word written is `setField` of the parity bit, and a legal tree gives its XOR. -/
theorem setParityBitIsUnchecked : Obligations.SetParityBitIsUnchecked := by
  intro s v w present hw
  have word := setField_parityBit_eq s.h v
  refine ⟨exec_setterOf_word present hw word, fun t legal => ?_⟩
  rw [parityOk_of_legal legal, hw, ← word]
  exact xorReduce_setField_parityBit s.h v

/-! ### Reserved commands and the absent unit -/

/-- Settles O42: the command decodes to the reserved row, which issues the word unchanged. -/
theorem reservedCommandsPassThrough : Obligations.ReservedCommandsPassThrough := by
  intro s sel v present reserved
  have upper : sel.extractLsb' 2 2 = 3#2 := by rcases reserved with rfl | rfl | rfl | rfl <;> rfl
  exact ⟨by rw [decode_reserved upper], (exec_reservedCF s sel v).trans (issueInsert_of_present present ..)⟩

/-- Settles O17: every insert row issues a command, which the absent unit refuses; the decoder's read is not concerned. -/
theorem absentInsertUnitRefusesCommands : Obligations.AbsentInsertUnitRefusesCommands := by
  intro s absent
  refine ⟨fun i insert => ?_, fun p shown => ?_⟩
  · obtain ⟨sel, v, out, hexec⟩ := exec_isInsert_outputs insert
    exact (hexec s).trans (issueInsert_of_absent absent ..)
  · exact ⟨_, (exec_updateParityDec s).trans (readPort_of_shows shown _), rfl⟩

end Sys2Proof.Machine

/-! PROOFS. The statements of 60_exceptions.md: where the machine stops, and how an invalid packet is reported. -/

namespace Sys2Proof.Machine

/-! ### Faults -/

theorem hostReadOutValid_fault {s : State} {f : Fault} (h : hostReadOutValid s = .fault f) :
    s.params.outReg = true ∧ outValid s = none := by
  unfold hostReadOutValid at h
  split at h
  · next reg =>
    split at h
    · cases h
    · next unread => exact ⟨reg, unread⟩
  · cases h

theorem exec_decode_fault {c : Code} {s : State} {f : Fault} (h : exec (decode c) s = .fault f) :
    (∃ q, c = .port q) ∧ decoderWord s = .error f := by
  cases c with
  | packet p => rw [exec_packet] at h; cases h
  | command c =>
    rw [exec_command, issueInsert] at h
    split at h <;> cases h
  | port q =>
    obtain ⟨record, hexec, -⟩ := exec_of_readsDecoder (readsDecoder_decode_port q)
    rw [hexec] at h
    exact ⟨⟨q, rfl⟩, readPort_fault h⟩

/-- Only two kinds of host step fault: a read of `out_valid_o`, and a read of a data port where the decoder shows no word. -/
theorem runHostStep_fault {hs : HostStep} {s : State} {f : Fault} (h : runHostStep hs s = .fault f) :
    (hs = .readOutValid ∧ s.params.outReg = true ∧ outValid s = none) ∨
    ((∃ q, hs = .code (.port q)) ∧ decoderWord s = .error f) := by
  cases hs with
  | ldw | ldb => cases h
  | dec =>
    simp only [runHostStep, hostDec] at h
    split at h <;> cases h
  | clk v r =>
    simp only [runHostStep, hostClk] at h
    split at h <;> cases h
  | readOutValid => exact .inl ⟨rfl, hostReadOutValid_fault h⟩
  | code c =>
    obtain ⟨⟨q, rfl⟩, unreadable⟩ := exec_decode_fault h
    exact .inr ⟨⟨q, rfl⟩, unreadable⟩

/-- Where `out_valid_o` has no value, no reset has been seen: after one, `valid_q` has a value. -/
theorem State.Inv.resetSeen_of_outValid_none {s : State} (inv : s.Inv) (reg : s.params.outReg = true)
    (unread : outValid s = none) : s.resetSeen = false := by
  refine Bool.eq_false_iff.mpr fun seen => inv.validKnown seen ?_
  simpa [outValid, reg, seen] using unread

/-- In a reachable state the decoder shows no word only before the first reset and while `valid_q = 0`: the other two ways
of `decoderWord_eq_error` contradict the invariant. -/
theorem State.Inv.of_decoderWord_error {s : State} (inv : s.Inv) {f : Fault} (h : decoderWord s = .error f) :
    s.params.outReg = true ∧ (s.resetSeen = false ∨ s.validQ = some false) := by
  obtain ⟨reg, ⟨-, unseen | unknown⟩ | ⟨-, -, invalid | ⟨valid, absent⟩⟩⟩ := decoderWord_eq_error h
  · exact ⟨reg, .inl unseen⟩
  · exact ⟨reg, .inl (Bool.eq_false_iff.mpr fun seen => inv.validKnown seen unknown)⟩
  · exact ⟨reg, .inr invalid⟩
  · exact absurd absent (inv.captured valid)

/-! ### Refusals -/

theorem issueInsert_refused {sel : Sel} {v : Val} {out : Word} {b : Bool} {s : State} {r : Refusal}
    (h : issueInsert sel v out b s = .refused r) : s.params.hasInsert = false ∧ r = .insertUnitAbsent := by
  unfold issueInsert at h
  split at h
  · cases h
  · next absent => cases h; exact ⟨by simpa using absent, rfl⟩

theorem exec_decode_refused {c : Code} {s : State} {r : Refusal} (h : exec (decode c) s = .refused r) :
    s.params.hasInsert = false ∧ r = .insertUnitAbsent ∧ ∃ cmd, c = .command cmd := by
  cases c with
  | packet p => rw [exec_packet] at h; cases h
  | command cmd =>
    rw [exec_command] at h
    obtain ⟨absent, hr⟩ := issueInsert_refused h
    exact ⟨absent, hr, cmd, rfl⟩
  | port q =>
    obtain ⟨record, hexec, -⟩ := exec_of_readsDecoder (readsDecoder_decode_port q)
    rw [hexec] at h
    exact absurd h readPort_not_refused

theorem hostReadOutValid_not_refused {s : State} {r : Refusal} : hostReadOutValid s ≠ .refused r := by
  unfold hostReadOutValid
  split
  · split <;> nofun
  · nofun

/-- Only the three host steps of the other builds are refused (60_exceptions.md R203). -/
theorem runHostStep_refused {hs : HostStep} {s : State} {r : Refusal} (h : runHostStep hs s = .refused r) :
    (s.params.hasInsert = false ∧ r = .insertUnitAbsent ∧ ∃ c, hs = .code (.command c)) ∨
    (s.params.outReg = false ∧ r = .clkWithoutRegister ∧ ∃ v b, hs = .clk v b) ∨
    (s.params.outReg = true ∧ r = .decWithRegister ∧ hs = .dec) := by
  cases hs with
  | ldw | ldb => cases h
  | dec =>
    simp only [runHostStep, hostDec] at h
    split at h
    · next reg => cases h; exact .inr (.inr ⟨reg, rfl, rfl⟩)
    · cases h
  | clk v b =>
    simp only [runHostStep, hostClk] at h
    split at h
    · cases h
    · next comb => cases h; exact .inr (.inl ⟨by simpa using comb, rfl, v, b, rfl⟩)
  | readOutValid => exact absurd h hostReadOutValid_not_refused
  | code c =>
    obtain ⟨absent, hr, cmd, rfl⟩ := exec_decode_refused h
    exact .inl ⟨absent, hr, cmd, rfl⟩

/-- A step that does not complete is the outcome of the first pending host step. -/
theorem step_stops {s : State} {o : Host.Outcome State Fault Refusal} (h : step s = o) (stops : ∀ t, o ≠ .next t) :
    ∃ hs rest, s.program = hs :: rest ∧ runHostStep hs (setProgram rest s) = o := by
  rcases step_cases s with ⟨-, idle⟩ | ⟨hs, rest, hprog, run⟩
  · exact absurd (h.symm.trans idle) (stops s)
  · exact ⟨hs, rest, hprog, run.symm.trans h⟩

/-- Settles O18: the stops of the pending host step, with the invariant shutting out registers that no run reaches. -/
theorem nothingElseStops : Obligations.NothingElseStops := by
  refine fun s inv => ⟨fun f h => ?_, fun r h => ?_⟩
  · obtain ⟨hs, rest, hprog, run⟩ := step_stops h (by simp)
    have invRest : (setProgram rest s).Inv := inv.setProgram rest
    rcases runHostStep_fault run with ⟨rfl, reg, unread⟩ | ⟨read, unreadable⟩
    · exact ⟨reg, .inl (invRest.resetSeen_of_outValid_none reg unread), _, rest, hprog, .inl rfl⟩
    · obtain ⟨reg, why⟩ := invRest.of_decoderWord_error unreadable
      exact ⟨reg, why, hs, rest, hprog, .inr read⟩
  · obtain ⟨hs, rest, hprog, run⟩ := step_stops h (by simp)
    have reasons := runHostStep_refused run
    exact ⟨hs, rest, hprog, reasons⟩

/-! ### Invalid packets -/

/-- Settles O32: an applied packet is observed whole, and `parity_ok_o` is the XOR of its bits, which is 0. -/
theorem invalidPacketIsStillDecoded : Obligations.InvalidPacketIsStillDecoded := by
  intro s i p readable legal hi even
  obtain ⟨valid, hobs⟩ := applyPacket_obs readable p
  have invalid : parityOk s.params.xorTree p = false := by
    rw [parityOk_of_legal legal, xorReduce_eq_false_iff]
    exact even
  refine ⟨_, exec_of_isPacket hi s, ?_⟩
  simp only [hobs, obsOf, decoderOutputs, invalid, typeOf_eq_extractLsb', chipOf_eq_extractLsb', channelOf_eq_extractLsb',
    timestampOf_eq_extractLsb', firstOf_eq_extractLsb', dataOf_eq_extractLsb', trigTypeOf_eq_extractLsb',
    localFifoOf_eq_extractLsb', sharedFifoOf_eq_extractLsb', downstreamOf_eq_extractLsb', parityBitOf_eq_extractLsb',
    and_self]

end Sys2Proof.Machine

/-! PROOFS. The statements of 70_reset_and_hazards.md: cascaded insert units against the sequence of commands, and the two
units' independence. -/

namespace Sys2Proof.Machine

/-! ### Cascaded commands -/

/-- Settles O44: by induction on the commands (`run_commands`), each step leaves in `H` what one copy of the unit gives. -/
theorem cascadedCommandsEqualTheSequence : Obligations.CascadedCommandsEqualTheSequence :=
  fun cmds _ _ present hprog => run_commands cmds present hprog

/-! ### The two units -/

/-- `s` with the block's registers, the decoder's pins and the observation of `t` (10_state.md R26, R28): a move that keeps
to the decoder's side gives a `t` with `t = withDecoderSideOf t s`. -/
def withDecoderSideOf (t s : State) : State :=
  { s with
    validQ := t.validQ, pktQ := t.pktQ, resetSeen := t.resetSeen,
    pktI := t.pktI, inValidI := t.inValidI, rst := t.rst, obs := t.obs }

theorem applyPacket_keeps_to_decoderSide (p : Word) (s : State) :
    applyPacket p s = withDecoderSideOf (applyPacket p s) s := by
  cases reg : s.params.outReg with
  | false => rw [applyPacket_combinational reg, withDecoderSideOf]
  | true => rw [applyPacket_registered reg, withDecoderSideOf]

/-- A decoder or packet row that completes keeps to the decoder's side. -/
theorem exec_keeps_to_decoderSide {i : Instr} (notInsert : isInsert i = false) {s t : State} (h : exec i s = .next t) :
    t = withDecoderSideOf t s := by
  cases reads : readsDecoder i with
  | true =>
    obtain ⟨record, hexec, -⟩ := exec_of_readsDecoder reads
    rw [hexec] at h
    obtain ⟨p, -, rfl⟩ := readPort_next h
    rfl
  | false =>
    obtain ⟨p, -, hexec⟩ := exec_of_packet reads notInsert s
    obtain rfl := Host.Outcome.next.inj (hexec.symm.trans h)
    exact applyPacket_keeps_to_decoderSide p s

/-- Settles O46: an insert row sets the insert ports and `H`, and any other row keeps to the decoder's side. -/
theorem insertUnitAndDecoderAreNotConnected : Obligations.InsertUnitAndDecoderAreNotConnected := by
  intro s t i h
  cases insert : isInsert i with
  | true =>
    obtain ⟨sel, v, out, hexec⟩ := exec_isInsert_outputs insert
    obtain ⟨-, rfl⟩ := issueInsert_next ((hexec s).symm.trans h)
    exact ⟨rfl, rfl, fun _ => ⟨rfl, rfl, rfl, rfl, rfl, rfl, rfl⟩, nofun⟩
  | false =>
    rw [exec_keeps_to_decoderSide insert h]
    exact ⟨rfl, rfl, nofun, fun _ => ⟨rfl, rfl, rfl, rfl, rfl, rfl⟩⟩

end Sys2Proof.Machine
